-- ==== Sys2Proof/Word.lean ====
section
/-! DEFINITION. The words of the RRU: the coefficient, the command word and the narrow fields of a command
(00_scope R10, R12; 10_state R21; 30_encoding R71). Bit 0 is the least significant bit of every word. -/

namespace Sys2Proof

/-- A 32-bit pattern (`bits32`): a coefficient, the `imm` field, `resp_data` (00_scope R10, 10_state R21). -/
abbrev Word := BitVec 32

/-- A 64-bit command word (30_encoding R70). -/
abbrev CmdWord := BitVec 64

/-- A bank number, the unsigned value of a 2-bit field; every value names a bank (30_encoding R73). -/
abbrev BankId := BitVec 2

/-- The 16-bit `idx` field: an unsigned coefficient index, or RDC's selector (30_encoding R71, R73). -/
abbrev Index := BitVec 16

/-- A ring element: exactly N = 256 coefficients, index i the coefficient of x^i (10_state R21). -/
abbrev RingElem := Vector Word 256

end Sys2Proof
end

