-- ==== Sys2Proof/Syntax.lean ====
section
/-! DEFINITION. The commands: one constructor of `Instr` per row of spec/opcode_table.json (30_encoding R74), and the
plain data of their one encoding format C64 (R71). -/

namespace Sys2Proof

/-- The thirteen commands with their operands in the order of 30_encoding R74. -/
inductive Instr where
  /-- `BARRETT imm` (40 R101). -/
  | barrett (imm : Word)
  /-- `MONT imm` (40 R104). -/
  | mont (imm : Word)
  /-- `TOMONT imm` (40 R107). -/
  | tomont (imm : Word)
  /-- `ZERO rd` (41 R131). -/
  | zero (rd : BankId)
  /-- `GET ra, idx` (41 R132). -/
  | get (ra : BankId) (idx : Index)
  /-- `SET rd, idx, imm`, restricted (41 R133). -/
  | set (rd : BankId) (idx : Index) (imm : Word)
  /-- `ADD rd, ra, rb` (41 R134). -/
  | add (rd ra rb : BankId)
  /-- `SUB rd, ra, rb` (41 R135). -/
  | sub (rd ra rb : BankId)
  /-- `SEQ ra` (41 R136). -/
  | seq (ra : BankId)
  /-- `BARRETT.I rd, idx`, restricted (42 R161). -/
  | barrettI (rd : BankId) (idx : Index)
  /-- `MONT.I rd, idx`, restricted (42 R162). -/
  | montI (rd : BankId) (idx : Index)
  /-- `TOMONT.I rd, idx`, restricted (42 R163). -/
  | tomontI (rd : BankId) (idx : Index)
  /-- `RDC sel` (43 R181); `sel` is the whole `idx` field. -/
  | rdc (sel : Index)
deriving DecidableEq, Repr

/-- The thirteen legal values of the `op` field, by name (30_encoding R74). -/
inductive Op where
  | barrett | mont | tomont
  | zero | get | set | add | sub | seq
  | barrettI | montI | tomontI
  | rdc
deriving DecidableEq, Repr

/-- The seven fields of format C64 (30_encoding R71). -/
structure C64 where
  /-- bits 63:32 -/
  imm : Word
  /-- bits 31:24 -/
  op : BitVec 8
  /-- bits 23:22 -/
  rd : BankId
  /-- bits 21:20 -/
  ra : BankId
  /-- bits 19:18 -/
  rb : BankId
  /-- bits 17:16, reserved -/
  z : BitVec 2
  /-- bits 15:0 -/
  idx : Index
deriving DecidableEq, Repr

/-- Which operand fields a command uses (the column "used fields" of 30_encoding R74). -/
structure Uses where
  imm : Bool := false
  rd : Bool := false
  ra : Bool := false
  rb : Bool := false
  idx : Bool := false
deriving DecidableEq, Repr

/-- Why a word is no command: the four ways to fail 30_encoding R75, in its order (a), (b), (c), (d). The hardware
reports all four alike, as `IllegalCommand`. -/
inductive Illegal where
  /-- (a): `op` is not one of the thirteen values (R76). -/
  | reservedOp
  /-- (b): `z` is not 0. -/
  | reservedBits
  /-- (c): a field the command does not use is not 0. -/
  | unusedField
  /-- (d): `RDC` with a selector above 7. -/
  | badSelector
deriving DecidableEq, Repr

end Sys2Proof
end

