-- ==== Sys2Proof/WellFormed.lean ====
section
/-! DEFINITION. Which terms of `Instr` are commands. Every field but one has exactly the width of its bits, so the one
check left is RDC's selector (30_encoding R75 (d), 43 R181). -/

namespace Sys2Proof

/-- `RDC` needs a selector of at most 7; every other term is a command as it stands. -/
def Instr.wellFormed : Instr → Bool
  | .barrett _ => true
  | .mont _ => true
  | .tomont _ => true
  | .zero _ => true
  | .get _ _ => true
  | .set _ _ _ => true
  | .add _ _ _ => true
  | .sub _ _ _ => true
  | .seq _ => true
  | .barrettI _ _ => true
  | .montI _ _ => true
  | .tomontI _ _ => true
  | .rdc sel => decide (sel.toNat ≤ 7)

end Sys2Proof
end

