-- ==== Sys2Proof/Decode.lean ====
section
/-! DEFINITION. The decoder, a total function of the 64-bit word alone that rejects by name (30_encoding R75 to R77), and
after it the encoder (R71). Both go through the seven fields of format C64. -/

namespace Sys2Proof

/-- The fields of a command word (30_encoding R71, R73). -/
def unpack (w : CmdWord) : C64 where
  imm := w.extractLsb' 32 32
  op := w.extractLsb' 24 8
  rd := w.extractLsb' 22 2
  ra := w.extractLsb' 20 2
  rb := w.extractLsb' 18 2
  z := w.extractLsb' 16 2
  idx := w.extractLsb' 0 16

/-- The opcode of each command (30_encoding R74). -/
def Op.code : Op → BitVec 8
  | .barrett => 0x01#8
  | .mont => 0x02#8
  | .tomont => 0x03#8
  | .zero => 0x10#8
  | .get => 0x11#8
  | .set => 0x12#8
  | .add => 0x13#8
  | .sub => 0x14#8
  | .seq => 0x15#8
  | .barrettI => 0x21#8
  | .montI => 0x22#8
  | .tomontI => 0x23#8
  | .rdc => 0x30#8

/-- The command an opcode names; every other opcode is reserved (30_encoding R74, R76). -/
def opOfCode (c : BitVec 8) : Option Op :=
  match c with
  | 0x01#8 => some .barrett
  | 0x02#8 => some .mont
  | 0x03#8 => some .tomont
  | 0x10#8 => some .zero
  | 0x11#8 => some .get
  | 0x12#8 => some .set
  | 0x13#8 => some .add
  | 0x14#8 => some .sub
  | 0x15#8 => some .seq
  | 0x21#8 => some .barrettI
  | 0x22#8 => some .montI
  | 0x23#8 => some .tomontI
  | 0x30#8 => some .rdc
  | _ => none

/-- The fields each command uses (30_encoding R74). -/
def Op.uses : Op → Uses
  | .barrett => { imm := true }
  | .mont => { imm := true }
  | .tomont => { imm := true }
  | .zero => { rd := true }
  | .get => { ra := true, idx := true }
  | .set => { rd := true, idx := true, imm := true }
  | .add => { rd := true, ra := true, rb := true }
  | .sub => { rd := true, ra := true, rb := true }
  | .seq => { ra := true }
  | .barrettI => { rd := true, idx := true }
  | .montI => { rd := true, idx := true }
  | .tomontI => { rd := true, idx := true }
  | .rdc => { idx := true }

/-- Every operand field that is not used is 0 (30_encoding R75 (c)). -/
def unusedZero (u : Uses) (f : C64) : Bool :=
  (u.imm || f.imm == 0) && (u.rd || f.rd == 0) && (u.ra || f.ra == 0) && (u.rb || f.rb == 0) &&
    (u.idx || f.idx == 0)

/-- The command of an opcode with its operands taken from the fields (30_encoding R73, R74). -/
def build (f : C64) : Op → Instr
  | .barrett => .barrett f.imm
  | .mont => .mont f.imm
  | .tomont => .tomont f.imm
  | .zero => .zero f.rd
  | .get => .get f.ra f.idx
  | .set => .set f.rd f.idx f.imm
  | .add => .add f.rd f.ra f.rb
  | .sub => .sub f.rd f.ra f.rb
  | .seq => .seq f.ra
  | .barrettI => .barrettI f.rd f.idx
  | .montI => .montI f.rd f.idx
  | .tomontI => .tomontI f.rd f.idx
  | .rdc => .rdc f.idx

/-- Decoding the fields: the four checks of 30_encoding R75 in their order, then the command. -/
def decodeC64 (f : C64) : Except Illegal Instr :=
  match opOfCode f.op with
  | none => .error .reservedOp
  | some o =>
    if f.z ≠ 0 then .error .reservedBits
    else if unusedZero o.uses f = false then .error .unusedField
    else if (build f o).wellFormed = false then .error .badSelector
    else .ok (build f o)

/-- `decode` of 30_encoding R77: total, and independent of state and of `cmd_trusted`. -/
def decode (w : CmdWord) : Except Illegal Instr := decodeC64 (unpack w)

/-- The word of seven fields, most significant first (30_encoding R71). -/
def pack (f : C64) : CmdWord := f.imm ++ f.op ++ f.rd ++ f.ra ++ f.rb ++ f.z ++ f.idx

/-- The table of 30_encoding R75 in mask form: command, `match`, `mask`. -/
def maskRows : List (Op × CmdWord × CmdWord) := [
  (.barrett, 0x0000000001000000#64, 0x00000000FFFFFFFF#64),
  (.mont, 0x0000000002000000#64, 0x00000000FFFFFFFF#64),
  (.tomont, 0x0000000003000000#64, 0x00000000FFFFFFFF#64),
  (.zero, 0x0000000010000000#64, 0xFFFFFFFFFF3FFFFF#64),
  (.get, 0x0000000011000000#64, 0xFFFFFFFFFFCF0000#64),
  (.set, 0x0000000012000000#64, 0x00000000FF3F0000#64),
  (.add, 0x0000000013000000#64, 0xFFFFFFFFFF03FFFF#64),
  (.sub, 0x0000000014000000#64, 0xFFFFFFFFFF03FFFF#64),
  (.seq, 0x0000000015000000#64, 0xFFFFFFFFFFCFFFFF#64),
  (.barrettI, 0x0000000021000000#64, 0xFFFFFFFFFF3F0000#64),
  (.montI, 0x0000000022000000#64, 0xFFFFFFFFFF3F0000#64),
  (.tomontI, 0x0000000023000000#64, 0xFFFFFFFFFF3F0000#64),
  (.rdc, 0x0000000030000000#64, 0xFFFFFFFFFFFFFFF8#64)]

/-- Whether a word matches a row: `(w & mask) = match` (30_encoding R75). -/
def rowMatches (w : CmdWord) (row : Op × CmdWord × CmdWord) : Bool := w &&& row.2.2 == row.2.1

/-- The pseudocode of 30_encoding R77, read from the mask table alone. -/
def maskDecode (w : CmdWord) : Option Instr :=
  (maskRows.find? (rowMatches w)).map fun row => build (unpack w) row.1

/-- The opcode name of a command. -/
def Instr.op : Instr → Op
  | .barrett _ => .barrett
  | .mont _ => .mont
  | .tomont _ => .tomont
  | .zero _ => .zero
  | .get _ _ => .get
  | .set _ _ _ => .set
  | .add _ _ _ => .add
  | .sub _ _ _ => .sub
  | .seq _ => .seq
  | .barrettI _ _ => .barrettI
  | .montI _ _ => .montI
  | .tomontI _ _ => .tomontI
  | .rdc _ => .rdc

/-- The fields of a command: its opcode and operands, every other field 0 (30_encoding R74, R75, R79). -/
def fieldsOf (i : Instr) : C64 :=
  let blank : C64 := { imm := 0, op := i.op.code, rd := 0, ra := 0, rb := 0, z := 0, idx := 0 }
  match i with
  | .barrett imm => { blank with imm := imm }
  | .mont imm => { blank with imm := imm }
  | .tomont imm => { blank with imm := imm }
  | .zero rd => { blank with rd := rd }
  | .get ra idx => { blank with ra := ra, idx := idx }
  | .set rd idx imm => { blank with rd := rd, idx := idx, imm := imm }
  | .add rd ra rb => { blank with rd := rd, ra := ra, rb := rb }
  | .sub rd ra rb => { blank with rd := rd, ra := ra, rb := rb }
  | .seq ra => { blank with ra := ra }
  | .barrettI rd idx => { blank with rd := rd, idx := idx }
  | .montI rd idx => { blank with rd := rd, idx := idx }
  | .tomontI rd idx => { blank with rd := rd, idx := idx }
  | .rdc sel => { blank with idx := sel }

/-- The encoder (30_encoding R71, R79): the one word of a command. -/
def encode (i : Instr) : CmdWord := pack (fieldsOf i)

/-- A command word given as a number of `nbits` bits, every bit above them 0. -/
def wordOfNat (nbits w : Nat) : CmdWord := BitVec.ofNat 64 (w % 2 ^ nbits)

/-- The decoder on a word numbered as spec/opcode_table.json numbers it: bit 0 is the least significant bit of the
one 64-bit word (30_encoding R70, R71). -/
def decodeTableWord (nbits w : Nat) : Option Instr := (decode (wordOfNat nbits w)).toOption

end Sys2Proof
end

