-- ==== Sys2Proof/Config.lean ====
section
/-! DEFINITION. What is wired into an RRU: the parameters of 00_scope R7 as one record, the relations of R8 as a
check, and the reference set. No command writes them, and no value of this hardware is left open, so the model
has no free value (60_exceptions, introduction: the RRU never has undefined behaviour). -/

namespace Sys2Proof

/-- The parameters of 00_scope R7. `BARRETT_R` and `MONT_R` are the powers of two of R8 (b) and (d), so they are
functions of the shifts and not fields. -/
structure Params where
  /-- `W`: working width and coefficient width in bits. -/
  w : Nat
  /-- `Q`: the modulus. -/
  q : Int
  /-- `N`: coefficients per ring element. -/
  n : Nat
  /-- `BARRETT_SHIFT`. -/
  barrettShift : Nat
  /-- `BARRETT_MULT`: the Barrett multiplier. -/
  barrettMult : Int
  /-- `MONT_SHIFT`: log2 of the Montgomery radix. -/
  montShift : Nat
  /-- `MONT_QINV`: the inverse of Q modulo the Montgomery radix (90_conflicts C1: of Q, not of -Q). -/
  montQinv : Int
  /-- `MONT_R2`: the square of the Montgomery radix modulo Q. -/
  montR2 : Int
  /-- `NBANK`: number of banks. -/
  nbank : Nat
  /-- `IDXW`: width of the index field in bits. -/
  idxw : Nat
deriving DecidableEq, Repr

/-- `BARRETT_R = 2^BARRETT_SHIFT` (R8 (b)). -/
def Params.barrettR (P : Params) : Int := 2 ^ P.barrettShift

/-- `MONT_R = 2^MONT_SHIFT` (R8 (d)). -/
def Params.montR (P : Params) : Int := 2 ^ P.montShift

/-- The relations (a), (c), (e), (f), (g), (h) of 00_scope R8; `floor(R/Q + 1/2)` is written `(2R + Q) / (2Q)`.
A modulus is positive. -/
abbrev Params.Ok (P : Params) : Prop :=
  0 < P.q ∧ P.q % 2 = 1 ∧
  P.barrettMult = (2 * P.barrettR + P.q) / (2 * P.q) ∧
  (P.q * P.montQinv) % P.montR = 1 ∧ 0 ≤ P.montQinv ∧ P.montQinv < P.montR ∧
  P.montR2 = (P.montR * P.montR) % P.q ∧
  P.n ≤ 2 ^ P.idxw ∧ P.w = 32

/-- The reference set of 00_scope R7, to which this hardware is hardwired (92 D6, D7, D19). -/
def Config.params : Params where
  w := 32
  q := 3329
  n := 256
  barrettShift := 26
  barrettMult := 20159
  montShift := 16
  montQinv := 62209
  montR2 := 1353
  nbank := 4
  idxw := 16

end Sys2Proof
end

