-- ==== Sys2Proof/Machine/State.lean ====
section
/-! DEFINITION. The state of one RRU as plain data (10_state R20 to R36), what its ports carry (70 R233 to R236, 30 R78),
the reasons a step could stop, and the state after reset (R33). -/

namespace Sys2Proof.Machine

/-- The five fault causes (10_state R27, 60_exceptions R191 to R195). Raising one is FAULT ENTRY, a next state, so
none of them stops the model. -/
inductive Cause where
  /-- Code 1: the word fails 30_encoding R75 (60 R191). -/
  | illegalCommand
  /-- Code 2: a restricted command with `cmd_trusted = 0` (60 R192). -/
  | privilegeFault
  /-- Code 3: a bank that holds no ring element is read or updated in place (60 R193). -/
  | uninitBank
  /-- Code 4: a coefficient index of N or more (60 R194). -/
  | indexFault
  /-- Code 5: a `chk32` given a value outside int32 (60 R195). -/
  | overflow
deriving DecidableEq, Repr

/-- What is sampled when a command is accepted: `cmd_word` and `cmd_trusted` (30 R72, 70 R234). -/
structure Command where
  /-- `cmd_word` -/
  word : CmdWord
  /-- `cmd_trusted` -/
  trusted : Bool
deriving DecidableEq, Repr

/-- One response beat (30_encoding R78). -/
structure Beat where
  /-- `resp_data` -/
  data : Word
  /-- `resp_last` -/
  last : Bool
  /-- `resp_err` -/
  err : Bool
deriving DecidableEq, Repr

/-- What the host drives on the input ports in one step (70 R233); the default is all inputs low. -/
structure PortInput where
  /-- `rst` -/
  rst : Bool := false
  /-- `cmd_valid` with `cmd_word` and `cmd_trusted`: `none` is `cmd_valid = 0`. -/
  cmd : Option Command := none
  /-- `resp_ready` -/
  respReady : Bool := false
deriving DecidableEq, Repr

/-- What the RRU drives on the output ports (70 R233, 10_state R35). -/
structure PortOutput where
  /-- `cmd_ready` -/
  cmdReady : Bool
  /-- `resp_valid` with `resp_data`, `resp_last`, `resp_err`: `none` is `resp_valid = 0`, where the spec gives the other
  three no value. -/
  beat : Option Beat
  /-- `fault` -/
  fault : Bool
  /-- `fcause` -/
  fcause : BitVec 3
  /-- `fcmd` -/
  fcmd : CmdWord
  /-- `ftrust` -/
  ftrust : Bool
deriving DecidableEq, Repr

/-- The state of one RRU. The first four fields are the tuple of 10_state R20; `resp` is the command in progress that
70 R235 and R236 describe; `cmd` and `inputs` are the model's own. -/
structure State where
  /-- `B` and `VALID` in one home: bank b is `some` ring element when `VALID[b] = 1`, and `none` (no value) when it is 0;
  the representation 10_state R22 names. -/
  banks : Vector (Option RingElem) 4
  /-- `FSR.CAUSE`: `none` is code 0 (10_state R27; 93 V8). The RRU is FAULTED exactly when this is not `none`. -/
  fsr : Option Cause
  /-- `FCMD` (10_state R28). -/
  fcmd : CmdWord
  /-- `FTRUST` (10_state R28). -/
  ftrust : Bool
  /-- The response beats of the command in progress that the host has not yet taken, oldest first (70 R235, R236). -/
  resp : List Beat
  /-- MODEL'S OWN: the word and trusted bit sampled when the last command was accepted (70 R234). -/
  cmd : Command
  /-- MODEL'S OWN: what the host will drive, one entry a step, the next one first (70 R243). -/
  inputs : List PortInput
deriving DecidableEq, Repr

/-- Why a step of the MODEL would stop with a fault: never. The RRU's own five faults are fault entry, a next state
(60 R200), and a FAULTED RRU ignores commands until reset (60 R201), which is a next state too. Nobody raises one;
safe, since there is nothing to raise. -/
inductive Fault where
deriving DecidableEq, Repr

/-- Why a step of the MODEL would refuse an instruction. -/
inductive Refusal where
  /-- The instruction has no meaning yet; raised only by a refused arm of `exec`, and no arm is refused; safe. -/
  | notModelled (mnemonic : String)
deriving DecidableEq, Repr

/-- The RRU right after reset (10_state R33, 70 R230): no bank valid, no fault recorded, idle, no beat pending. The two
fields of the model's own: DESIGN CHOICE, no command sampled yet (word 0, public) and nothing driven by the host. -/
def State.reset : State where
  banks := Vector.replicate 4 none
  fsr := none
  fcmd := 0
  ftrust := false
  resp := []
  cmd := { word := 0, trusted := false }
  inputs := []

end Sys2Proof.Machine
end

