-- ==== Sys2Proof/Machine/Operands.lean ====
section
/-! DEFINITION. The numbers of the RRU and its one check on them (00_scope R10, R11, R14, 40 R111): exact integers, the two
readings of a 32-bit pattern, floor shift, least non-negative residue, and the working-width law `chk32`. -/

namespace Sys2Proof.Machine

/-- `int32` (00_scope R10). -/
abbrev InInt32 (x : Int) : Prop := -2147483648 ≤ x ∧ x ≤ 2147483647

/-- `enc32`: the pattern of an int32 (00_scope R10). -/
def enc32 (v : Int) : Word := BitVec.ofInt 32 v

/-- `dec32`: the int32 of a pattern (00_scope R10). -/
def dec32 (w : Word) : Int := if w.toNat < 2147483648 then (w.toNat : Int) else (w.toNat : Int) - 4294967296

/-- `x >> k`, the floor of `x / 2^k` for either sign (00_scope R11, 92 D11). -/
def asr (x : Int) (k : Nat) : Int := x / 2 ^ k

/-- `x mod m`, the least non-negative residue for `m > 0` (00_scope R11, 92 D12). -/
def residue (x m : Int) : Int := x % m

/-- `chk32`: the working-width law (00_scope R14). Never a wrapped or saturated value. -/
def chk32 (x : Int) : Except Cause Int :=
  if InInt32 x then .ok x else .error .overflow

end Sys2Proof.Machine
end

