-- ==== Sys2Proof/Machine/Ops.lean ====
section
/-! DEFINITION. The named operations over the state: the banks (10_state R21 to R23, 00_scope R13), the checks of a command in
their order (41 R130, 42 R160), the response (30 R78), FAULT ENTRY as one shared operation (60 R200), how a command
ends, and reset, the only exit from a fault (60 R203, 70 R230). -/

namespace Sys2Proof.Machine

/-- Coefficient i of a ring element (00_scope R13). -/
def coeff (a : RingElem) (i : Fin 256) : Word := a[i]

/-- A ring element with coefficient i replaced and no other (00_scope R13). -/
def setCoeff (a : RingElem) (i : Fin 256) (v : Word) : RingElem := a.set i.val v i.isLt

/-- The ring element with these 256 coefficients in index order. -/
def ringOfList (l : List Word) (h : l.length = 256) : RingElem := ⟨l.toArray, h⟩

/-- The ring element whose coefficient i is `f i`. -/
def ringOf (f : Fin 256 → Word) : RingElem := ringOfList (List.ofFn f) List.length_ofFn

/-- What bank b holds: a ring element when `VALID[b] = 1`, else no value (10_state R22, R23). -/
def State.bank (s : State) (b : BankId) : Option RingElem := s.banks[b.toNat]'b.isLt

/-- `B[b][i]`, the read of one coefficient: no value in a bank that is not valid (00_scope R13, 10_state R30). -/
def State.readCoeff (s : State) (b : BankId) (i : Fin 256) : Option Word := (s.bank b).map (fun a => coeff a i)

/-- Bank b gets a ring element and `VALID[b]` becomes 1 (10_state R23). -/
def State.writeBank (s : State) (b : BankId) (a : RingElem) : State :=
  { s with banks := s.banks.set b.toNat (some a) b.isLt }

/-- The privilege check: `cmd_trusted = 1`, else `PrivilegeFault` (60 R192). -/
def checkTrusted (s : State) : Except Cause Unit :=
  if s.cmd.trusted then .ok () else .error .privilegeFault

/-- The bank check and the read behind it: `VALID[b] = 1`, else `UninitBank` (60 R193). -/
def readBank (s : State) (b : BankId) : Except Cause RingElem :=
  match s.bank b with
  | some a => .ok a
  | none => .error .uninitBank

/-- The index check: `idx < N`, else `IndexFault` (60 R194). -/
def checkIndex (idx : Index) : Except Cause (Fin 256) :=
  if h : idx.toNat < 256 then .ok ⟨idx.toNat, h⟩ else .error .indexFault

/-- The coefficient a command addresses: bank check, then index check (41 R130). -/
def locate (s : State) (b : BankId) (idx : Index) : Except Cause (RingElem × Fin 256) := do
  let a ← readBank s b
  let i ← checkIndex idx
  pure (a, i)

/-- `respond(v)`: one beat with the data, last, no error (00_scope R13, 30 R78). -/
def State.respond (s : State) (v : Word) : State :=
  { s with resp := [{ data := v, last := true, err := false }] }

/-- The beats of `respond_seq`: in order, `resp_last` on the final one only (00_scope R13). -/
def beatsOf : List Word → List Beat
  | [] => []
  | [v] => [{ data := v, last := true, err := false }]
  | v :: vs => { data := v, last := false, err := false } :: beatsOf vs

/-- `respond_seq` (00_scope R13). -/
def State.respondSeq (s : State) (vs : List Word) : State := { s with resp := beatsOf vs }

/-- The one beat of a command that faulted (60 R200). -/
def errorBeat : Beat := { data := 0, last := true, err := true }

/-- FAULT ENTRY (60 R196, R200): the cause, the whole command word and its trusted bit are recorded, the response is one
error beat, and banks are as before the command. -/
def faultEntry (c : Cause) (s : State) : State :=
  { s with fsr := some c, fcmd := s.cmd.word, ftrust := s.cmd.trusted, resp := [errorBeat] }

/-- The restricted update of one coefficient (10_state R36, 41 R133, 42 R160): privilege, bank, index, then the new value
`f` of the old one, which may overflow; only after all of them the one write, and the response 0. -/
def updateCoeff (f : Word → Except Cause Word) (rd : BankId) (idx : Index) (s : State) : Except Cause State := do
  checkTrusted s
  let p ← locate s rd idx
  let z ← f (coeff p.1 p.2)
  pure ((s.writeBank rd (setCoeff p.1 p.2 z)).respond 0)

/-- How a command's checks and effect end: its state when they all passed, else fault entry from the state before the
command, so that none of its writes happen (00_scope R13, 60 R202). -/
def finish (s : State) (r : Except Cause State) : Host.Outcome State Fault Refusal :=
  match r with
  | .ok t => .next t
  | .error c => .next (faultEntry c s)

/-- Reset (70 R230): any state goes to the reset state; what the host will drive next is the host's and stays. -/
def applyReset (s : State) : State := { State.reset with inputs := s.inputs }

end Sys2Proof.Machine
end

