-- ==== Sys2Proof/Machine/Constants.lean ====
section
/-! DEFINITION. The constant access command RDC (43_constants_access), the RRU's only system command (R180), and the eight wired
constants it reads (10_state R29). -/

namespace Sys2Proof.Machine

/-- The constant space (10_state R29, 43 R181): `CONST[sel]`; selectors 8 to 65535 are reserved. -/
def constant (P : Params) (sel : Index) : Option Word :=
  match sel.toNat with
  | 0 => some (enc32 P.q)
  | 1 => some (enc32 P.n)
  | 2 => some (enc32 P.barrettShift)
  | 3 => some (enc32 P.barrettMult)
  | 4 => some (enc32 P.montShift)
  | 5 => some (enc32 P.montQinv)
  | 6 => some (enc32 P.montR2)
  | 7 => some (enc32 P.nbank)
  | _ => none

/-- `RDC sel` (43 R181). A reserved selector decodes to no command; on such a term the meaning raises `IllegalCommand`,
as 10_state R29 says of it. -/
def execRdc (sel : Index) (s : State) : Host.Outcome State Fault Refusal :=
  finish s
    (match constant Config.params sel with
    | some v => .ok (s.respond v)
    | none => .error .illegalCommand)

end Sys2Proof.Machine
end

