-- ==== Sys2Proof/Machine/Reduce.lean ====
section
/-! DEFINITION. The field reduction commands BARRETT, MONT, TOMONT (40_field_reduction) and the three functions behind them,
written from the pseudocode against the parameters of 00_scope R7. They read and write no bank (R100). -/

namespace Sys2Proof.Machine

/-- `barrett(v)` (40 R101): the product and the rounding sum are both checked (90 C2). -/
def barrett (P : Params) (v : Int) : Except Cause Int := do
  let p ← chk32 (v * P.barrettMult)
  let s ← chk32 (p + asr P.barrettR 1)
  let qt := asr s P.barrettShift
  let m := qt * P.q
  pure (v - m)

/-- The factor `t` of 40 R104: the residue of the exact product, which no check applies to (90 C5). -/
def montT (P : Params) (v : Int) : Int := residue (v * P.montQinv) P.montR

/-- `mont(v)` (40 R104). -/
def mont (P : Params) (v : Int) : Except Cause Int := do
  let u := montT P v * P.q
  let d ← chk32 (v - u)
  pure (asr d P.montShift)

/-- `tomont(v)` (40 R107). -/
def tomont (P : Params) (v : Int) : Except Cause Int := do
  let p ← chk32 (P.montR2 * v)
  mont P p

/-- A reduction on 32-bit patterns (40 R100). -/
def reduceWord (f : Int → Except Cause Int) (w : Word) : Except Cause Word := (f (dec32 w)).map enc32

/-- A scalar command: the reduction of `imm` is the response, or its overflow is the fault (40 R100). -/
def respondReduced (f : Int → Except Cause Int) (imm : Word) (s : State) : Except Cause State :=
  (reduceWord f imm).map s.respond

/-- `BARRETT imm` (40 R101). -/
def execBarrett (imm : Word) (s : State) : Host.Outcome State Fault Refusal :=
  finish s (respondReduced (barrett Config.params) imm s)

/-- `MONT imm` (40 R104). -/
def execMont (imm : Word) (s : State) : Host.Outcome State Fault Refusal :=
  finish s (respondReduced (mont Config.params) imm s)

/-- `TOMONT imm` (40 R107). -/
def execTomont (imm : Word) (s : State) : Host.Outcome State Fault Refusal :=
  finish s (respondReduced (tomont Config.params) imm s)

end Sys2Proof.Machine
end

