-- ==== Sys2Proof/Machine/InPlace.lean ====
section
/-! DEFINITION. The in-place reduction commands BARRETT.I, MONT.I, TOMONT.I (42_inplace_reduction): indexed read, reduction and
restricted write of one coefficient, with the checks of R160 in their order. -/

namespace Sys2Proof.Machine

/-- The shared template of 42 R160: the restricted update whose new value is the reduction of the old one. -/
def reduceInPlace (f : Int → Except Cause Int) (rd : BankId) (idx : Index) (s : State) : Except Cause State :=
  updateCoeff (reduceWord f) rd idx s

/-- `BARRETT.I rd, idx` (42 R161), restricted. -/
def execBarrettI (rd : BankId) (idx : Index) (s : State) : Host.Outcome State Fault Refusal :=
  finish s (reduceInPlace (barrett Config.params) rd idx s)

/-- `MONT.I rd, idx` (42 R162), restricted. -/
def execMontI (rd : BankId) (idx : Index) (s : State) : Host.Outcome State Fault Refusal :=
  finish s (reduceInPlace (mont Config.params) rd idx s)

/-- `TOMONT.I rd, idx` (42 R163), restricted. -/
def execTomontI (rd : BankId) (idx : Index) (s : State) : Host.Outcome State Fault Refusal :=
  finish s (reduceInPlace (tomont Config.params) rd idx s)

end Sys2Proof.Machine
end

