-- ==== Sys2Proof/Machine/RingOps.lean ====
section
/-! DEFINITION. The ring-element commands ZERO, GET, SET, ADD, SUB, SEQ (41_ring_element). The checks stand in the order of
R130 and all come before the first write. -/

namespace Sys2Proof.Machine

/-- The zero ring element (41 R131, 00_scope R15). -/
def zeroElem : RingElem := Vector.replicate 256 0

/-- The exact result of each lane, in index order: lane i depends on lane i of each source only (41 R134, R135). -/
def laneResults (f : Int → Int → Int) (a b : RingElem) : List Int :=
  List.zipWith (fun x y => f (dec32 x) (dec32 y)) a.toList b.toList

/-- `chk32` on all N lanes: every lane is checked before any is written, and one lane outside int32 is an overflow of the
whole (41 R134, R135, 60 R202). -/
def lanes (f : Int → Int → Int) (a b : RingElem) : Except Cause RingElem :=
  if (laneResults f a b).all (fun x => decide (InInt32 x)) then
    .ok (ringOfList ((laneResults f a b).map enc32) (by simp [laneResults]))
  else .error .overflow

/-- ADD and SUB: both sources read, the lanes checked, then `rd` replaced and made valid; `rd` may be a source
(20 R61, 41 R134, R135). -/
def combineBanks (f : Int → Int → Int) (rd ra rb : BankId) (s : State) : Except Cause State := do
  let a ← readBank s ra
  let b ← readBank s rb
  let c ← lanes f a b
  pure ((s.writeBank rd c).respond 0)

/-- `ZERO rd` (41 R131). -/
def execZero (rd : BankId) (s : State) : Host.Outcome State Fault Refusal :=
  finish s (.ok ((s.writeBank rd zeroElem).respond 0))

/-- `GET ra, idx` (41 R132). -/
def execGet (ra : BankId) (idx : Index) (s : State) : Host.Outcome State Fault Refusal :=
  finish s ((locate s ra idx).map fun p => s.respond (coeff p.1 p.2))

/-- `SET rd, idx, imm` (41 R133), restricted: the new value is `imm` as it stands. -/
def execSet (rd : BankId) (idx : Index) (imm : Word) (s : State) : Host.Outcome State Fault Refusal :=
  finish s (updateCoeff (fun _ => .ok imm) rd idx s)

/-- `ADD rd, ra, rb` (41 R134). -/
def execAdd (rd ra rb : BankId) (s : State) : Host.Outcome State Fault Refusal :=
  finish s (combineBanks (fun x y => x + y) rd ra rb s)

/-- `SUB rd, ra, rb` (41 R135): `ra` minus `rb`. -/
def execSub (rd ra rb : BankId) (s : State) : Host.Outcome State Fault Refusal :=
  finish s (combineBanks (fun x y => x - y) rd ra rb s)

/-- `SEQ ra` (41 R136). -/
def execSeq (ra : BankId) (s : State) : Host.Outcome State Fault Refusal :=
  finish s ((readBank s ra).map fun a => s.respondSeq a.toList)

end Sys2Proof.Machine
end

