-- ==== Sys2Proof/Machine/Dispatch.lean ====
section
/-! DEFINITION. The one match over the commands: each arm calls its own meaning. -/

namespace Sys2Proof.Machine

/-- What one accepted, decoded command does (70 R237): its completion, or fault entry, both a next state. The command's word
and trusted bit are `s.cmd`. -/
def exec (i : Instr) (s : State) : Host.Outcome State Fault Refusal :=
  match i with
  | .barrett imm => Sys2Proof.Machine.execBarrett imm s
  | .mont imm => Sys2Proof.Machine.execMont imm s
  | .tomont imm => Sys2Proof.Machine.execTomont imm s
  | .zero rd => Sys2Proof.Machine.execZero rd s
  | .get ra idx => Sys2Proof.Machine.execGet ra idx s
  | .set rd idx imm => Sys2Proof.Machine.execSet rd idx imm s
  | .add rd ra rb => Sys2Proof.Machine.execAdd rd ra rb s
  | .sub rd ra rb => Sys2Proof.Machine.execSub rd ra rb s
  | .seq ra => Sys2Proof.Machine.execSeq ra s
  | .barrettI rd idx => Sys2Proof.Machine.execBarrettI rd idx s
  | .montI rd idx => Sys2Proof.Machine.execMontI rd idx s
  | .tomontI rd idx => Sys2Proof.Machine.execTomontI rd idx s
  | .rdc sel => Sys2Proof.Machine.execRdc sel s

end Sys2Proof.Machine
end

