-- ==== Sys2Proof/Machine/Flags.lean ====
section
/-! DEFINITION. The one-bit and status views of the state. The RRU has no condition codes (10_state R26): its only bits are
`VALID` (R23) and `FTRUST` (R28). Here are `VALID`, the code of `FSR.CAUSE` (R27) and the conditions "FAULTED" (R27) and
"idle" (70 R236). -/

namespace Sys2Proof.Machine

/-- `VALID[b]` (10_state R23). -/
def State.valid (s : State) (b : BankId) : Bool := (s.bank b).isSome

/-- The code of a fault cause (10_state R27, 60 R191 to R195). -/
def Cause.code : Cause → BitVec 3
  | .illegalCommand => 1
  | .privilegeFault => 2
  | .uninitBank => 3
  | .indexFault => 4
  | .overflow => 5

/-- The three bits of `FSR.CAUSE` (10_state R27). -/
def State.fsrCode (s : State) : BitVec 3 :=
  match s.fsr with
  | none => 0
  | some c => c.code

/-- FAULTED: `FSR.CAUSE` is not 0 (10_state R27). -/
def State.faulted (s : State) : Bool := s.fsr.isSome

/-- Idle: not FAULTED and no command in progress, that is no beat left to take (70 R236). -/
def State.idle (s : State) : Bool := !s.faulted && s.resp.isEmpty

end Sys2Proof.Machine
end

