-- ==== Sys2Proof/Machine/Ports.lean ====
section
/-! DEFINITION. The ports (70 R233 to R236, 10_state R35): what the RRU drives, when a command is accepted, and when a response
beat is transferred. -/

namespace Sys2Proof.Machine

/-- The output ports while the host drives `rst` (70 R230, R234, R235; 10_state R35). -/
def outputs (rst : Bool) (s : State) : PortOutput where
  cmdReady := !rst && s.idle
  beat := if rst then none else s.resp.head?
  fault := s.faulted
  fcause := s.fsrCode
  fcmd := s.fcmd
  ftrust := s.ftrust

/-- The command accepted in this step: the one presented, when the RRU is ready (70 R234). -/
def acceptedCommand (inp : PortInput) (s : State) : Option Command :=
  if (outputs inp.rst s).cmdReady then inp.cmd else none

/-- Sampling an accepted command (70 R234). -/
def State.latch (s : State) (c : Command) : State := { s with cmd := c }

/-- The response port: the oldest beat is transferred when the host is ready, and otherwise stays (70 R235). -/
def transferBeat (inp : PortInput) (s : State) : State :=
  if inp.respReady then { s with resp := s.resp.tail } else s

/-- A word that decodes to nothing raises `IllegalCommand` (60 R191). -/
def takeIllegal (s : State) : State := faultEntry .illegalCommand s

/-- The port sample of a host that presents one trusted command word and takes no beat. -/
def presentTrusted (w : CmdWord) : PortInput := { cmd := some { word := w, trusted := true } }

/-- The state as an idle one: no fault recorded and no beat pending (70 R236), all else as it was. -/
def State.madeIdle (s : State) : State := { s with fsr := none, fcmd := 0, ftrust := false, resp := [] }

end Sys2Proof.Machine
end

