-- ==== Sys2Proof/Machine/Accept.lean ====
section
/-! DEFINITION. What one sample of the ports does: reset, accepting and running a command, or transferring a beat
(70 R230, R234, R235, R237). -/

namespace Sys2Proof.Machine

/-- An accepted command is sampled, decoded and run; an illegal word raises `IllegalCommand` (70 R237). -/
def runCommand (c : Command) (s : State) : Host.Outcome State Fault Refusal :=
  match decode c.word with
  | .ok i => exec i (s.latch c)
  | .error _ => .next (takeIllegal (s.latch c))

/-- One sample of the ports: reset wins (70 R230); else a command presented to a ready RRU is accepted and run (R234,
R237); else a response beat may be transferred (R235). -/
def stepInput (inp : PortInput) (s : State) : Host.Outcome State Fault Refusal :=
  if inp.rst then .next (applyReset s)
  else
    match acceptedCommand inp s with
    | some c => runCommand c s
    | none => .next (transferBeat inp s)

end Sys2Proof.Machine
end

