-- ==== Sys2Proof/Machine/Step.lean ====
section
/-! DEFINITION. One step of the RRU, which samples its ports once (70 R230, R234 to R237), and how a command is put where the next
step finds it. -/

namespace Sys2Proof.Machine

/-- One step: the next thing the host drives. A host that drives nothing (70 R243) changes nothing. -/
def step (s : State) : Host.Outcome State Fault Refusal :=
  match s.inputs with
  | [] => .next s
  | inp :: rest => stepInput inp { s with inputs := rest }

/-- The state in which the very next step accepts and runs the command of that word: the RRU idle, and the host presenting
the word as a trusted command. There is no instruction memory (10_state R25), so this stands for the host's presenting it.
DESIGN CHOICE: the command is presented as trusted, so that a restricted one passes its privilege check. -/
def State.withFetchWord (s : State) (nbits w : Nat) : State :=
  { s.madeIdle with inputs := presentTrusted (wordOfNat nbits w) :: s.inputs }

end Sys2Proof.Machine
end

