-- ==== Sys2Proof/Safety.lean ====
section
/-! DEFINITION. What counts as a safe run, and the terms the statements about the RRU are made in: which conditions of a command
fail (60 R197, R199), the invariants of a state (10_state R34, 60 R196, R206), and the states a run reaches (70 R237). -/

namespace Sys2Proof

/-- The restricted commands (60 R205). -/
def Op.restricted : Op → Bool
  | .set => true
  | .barrettI => true
  | .montI => true
  | .tomontI => true
  | .barrett => false
  | .mont => false
  | .tomont => false
  | .zero => false
  | .get => false
  | .add => false
  | .sub => false
  | .seq => false
  | .rdc => false

/-- The commands that replace a whole bank (10_state R36). -/
def Op.replacesBank : Op → Bool
  | .zero => true
  | .add => true
  | .sub => true
  | .barrett => false
  | .mont => false
  | .tomont => false
  | .get => false
  | .set => false
  | .seq => false
  | .barrettI => false
  | .montI => false
  | .tomontI => false
  | .rdc => false

/-- The commands that change no bank (10_state R32). -/
def Op.readsOnly (o : Op) : Bool := !o.restricted && !o.replacesBank

/-- The banks whose `VALID` bit a command needs: its sources, or the bank it updates in place (60 R193). -/
def Instr.banksRead : Instr → List BankId
  | .barrett _ => []
  | .mont _ => []
  | .tomont _ => []
  | .zero _ => []
  | .get ra _ => [ra]
  | .set rd _ _ => [rd]
  | .add _ ra rb => [ra, rb]
  | .sub _ ra rb => [ra, rb]
  | .seq ra => [ra]
  | .barrettI rd _ => [rd]
  | .montI rd _ => [rd]
  | .tomontI rd _ => [rd]
  | .rdc _ => []

/-- The bank a command writes (10_state R32). -/
def Instr.bankWritten : Instr → Option BankId
  | .barrett _ => none
  | .mont _ => none
  | .tomont _ => none
  | .zero rd => some rd
  | .get _ _ => none
  | .set rd _ _ => some rd
  | .add rd _ _ => some rd
  | .sub rd _ _ => some rd
  | .seq _ => none
  | .barrettI rd _ => some rd
  | .montI rd _ => some rd
  | .tomontI rd _ => some rd
  | .rdc _ => none

/-- The coefficient index a command addresses (60 R194). -/
def Instr.indexUsed : Instr → Option Index
  | .barrett _ => none
  | .mont _ => none
  | .tomont _ => none
  | .zero _ => none
  | .get _ idx => some idx
  | .set _ idx _ => some idx
  | .add _ _ _ => none
  | .sub _ _ _ => none
  | .seq _ => none
  | .barrettI _ idx => some idx
  | .montI _ idx => some idx
  | .tomontI _ idx => some idx
  | .rdc _ => none

end Sys2Proof

namespace Sys2Proof.Machine

/-- A safe state: no fault since reset (70 R238: a run that faulted is not a successful run). -/
abbrev Safe (s : State) : Prop := s.fsr = none

/-- Which command can raise which cause (60 R197); a malformed word with that opcode is the `IllegalCommand` column. -/
def mayRaise (o : Op) (c : Cause) : Bool :=
  match c with
  | .illegalCommand => true
  | .privilegeFault => o.restricted
  | .uninitBank => o.restricted || o == .get || o == .add || o == .sub || o == .seq
  | .indexFault => o.restricted || o == .get
  | .overflow =>
    o == .barrett || o == .mont || o == .tomont || o == .add || o == .sub || o == .barrettI || o == .montI ||
      o == .tomontI

/-- The privilege check of a command fails (60 R192). -/
def privilegeFails (i : Instr) (s : State) : Prop := i.op.restricted = true ∧ s.cmd.trusted = false

/-- The bank check of a command fails (60 R193). -/
def bankFails (i : Instr) (s : State) : Prop := ∃ b ∈ i.banksRead, s.valid b = false

/-- The index check of a command fails (60 R194). -/
def indexFails (i : Instr) : Prop := ∃ idx, i.indexUsed = some idx ∧ 256 ≤ idx.toNat

/-- BARRETT's operands outside its legal range (40 R103). -/
def barrettOverflows (v : Int) : Prop := v < -106527 ∨ 104862 < v

/-- MONT's faulting operands (40 R106). -/
def montOverflows (v : Int) : Prop := v - (v * 62209) % 65536 * 3329 < -2147483648

/-- TOMONT's faulting operands (40 R107). -/
def tomontOverflows (v : Int) : Prop := v < -1587201 ∨ 1587201 < v ∨ montOverflows (1353 * v)

/-- The value of `barrett` at the reference parameters, written out (40 R101). -/
def barrettValue (v : Int) : Int := v - (v * 20159 + 33554432) / 67108864 * 3329

/-- The value of `mont` at the reference parameters, written out (40 R104). -/
def montValue (v : Int) : Int := (v - (v * 62209) % 65536 * 3329) / 65536

/-- Some lane of two banks leaves int32 (41 R134, R135). -/
def laneOverflows (f : Int → Int → Int) (s : State) (ra rb : BankId) : Prop :=
  ∃ i x y, s.readCoeff ra i = some x ∧ s.readCoeff rb i = some y ∧ ¬ InInt32 (f (dec32 x) (dec32 y))

/-- The coefficient a command addresses has a property (00_scope R13). -/
def coeffIs (p : Int → Prop) (s : State) (b : BankId) (idx : Index) : Prop :=
  ∃ i : Fin 256, i.val = idx.toNat ∧ ∃ x, s.readCoeff b i = some x ∧ p (dec32 x)

/-- The arithmetic of a command overflows (60 R195). -/
def arithmeticFails (i : Instr) (s : State) : Prop :=
  match i with
  | .barrett imm => barrettOverflows (dec32 imm)
  | .mont imm => montOverflows (dec32 imm)
  | .tomont imm => tomontOverflows (dec32 imm)
  | .zero _ => False
  | .get _ _ => False
  | .set _ _ _ => False
  | .add _ ra rb => laneOverflows (fun x y => x + y) s ra rb
  | .sub _ ra rb => laneOverflows (fun x y => x - y) s ra rb
  | .seq _ => False
  | .barrettI rd idx => coeffIs barrettOverflows s rd idx
  | .montI rd idx => coeffIs montOverflows s rd idx
  | .tomontI rd idx => coeffIs tomontOverflows s rd idx
  | .rdc _ => False

/-- The response of a command that completed: one beat with the data (30 R78). -/
abbrev OneBeat (t : State) (v : Word) : Prop := t.resp = [{ data := v, last := true, err := false }]

/-- The fault record is as before (10_state R27, R28). -/
abbrev SameRecord (s t : State) : Prop := t.fsr = s.fsr ∧ t.fcmd = s.fcmd ∧ t.ftrust = s.ftrust

/-- The sampled command and what the host will drive are as before. -/
abbrev SameHost (s t : State) : Prop := t.cmd = s.cmd ∧ t.inputs = s.inputs

/-- Every coefficient of every bank but one reads as before. -/
abbrev OtherBanksSame (rd : BankId) (s t : State) : Prop := ∀ b, b ≠ rd → ∀ i, t.readCoeff b i = s.readCoeff b i

/-- The state before and after a command that may have written bank `rd` and gave one beat: everything else is kept. -/
abbrev FrameBut (rd : BankId) (s t : State) : Prop := OtherBanksSame rd s t ∧ SameRecord s t ∧ SameHost s t

/-- The state before and after a command that wrote `z` into one coefficient, gave one beat of data 0 and did nothing
else (42 R160). -/
abbrev WroteOneCoeff (rd : BankId) (i : Fin 256) (z : Word) (s t : State) : Prop :=
  t.readCoeff rd i = some z ∧ (∀ b j, ¬ (b = rd ∧ j = i) → t.readCoeff b j = s.readCoeff b j) ∧
    SameRecord s t ∧ SameHost s t ∧ OneBeat t 0

/-- What is left of a response that reports no fault: beats without error, `resp_last` on the final one only (30 R78). -/
def dataBeats : List Beat → Bool
  | [] => false
  | [b] => b.last && !b.err
  | b :: bs => !b.last && !b.err && dataBeats bs

/-- The relations between the fields of a state: 10_state R34 (c), and what may be pending on the response port: at most
the N beats of one command (30 R78), and in FAULTED nothing but the error beat (60 R201). -/
abbrev State.wf (s : State) : Prop :=
  (s.fsr = none → s.fcmd = 0 ∧ s.ftrust = false ∧
    (s.resp = [] ∨ (dataBeats s.resp = true ∧ s.resp.length ≤ 256))) ∧
  (s.fsr ≠ none → s.resp = [] ∨ s.resp = [errorBeat])

/-- The fault record names a command that raises exactly the recorded cause: the condition of that cause fails and none of
lower code does (60 R191 to R196, R199). -/
def RecordTruthful (s : State) : Prop :=
  ∀ c, s.fsr = some c →
    match decode s.fcmd with
    | .error _ => c = .illegalCommand
    | .ok i =>
      c ≠ .illegalCommand ∧ mayRaise i.op c = true ∧
      (c = .privilegeFault ↔ (i.op.restricted = true ∧ s.ftrust = false)) ∧
      (c = .uninitBank → bankFails i s) ∧ (c = .indexFault → ¬ bankFails i s ∧ indexFails i) ∧
      (c = .overflow → ¬ bankFails i s ∧ ¬ indexFails i ∧ arithmeticFails i s)

/-- Every coefficient of every valid bank is 0 (60 R206). -/
def AllZero (s : State) : Prop := ∀ b i x, s.readCoeff b i = some x → x = 0

/-- The host will present public commands only (60 R204). -/
def PublicOnly (s : State) : Prop := ∀ inp ∈ s.inputs, ∀ c, inp.cmd = some c → c.trusted = false

/-- The host will not assert reset. -/
def NoReset (s : State) : Prop := ∀ inp ∈ s.inputs, inp.rst = false

/-- The states of the runs from reset, whatever the host drives (70 R237, R243). -/
inductive Reachable : State → Prop where
  | reset (inputs : List PortInput) : Reachable { State.reset with inputs := inputs }
  | step {s t : State} : Reachable s → step s = .next t → Reachable t

/-- A word that passes 30_encoding R75 (a) to (d). -/
def LegalWord (w : CmdWord) : Prop :=
  ∃ o : Op, (unpack w).op = o.code ∧ (unpack w).z = 0 ∧ unusedZero o.uses (unpack w) = true ∧
    (o = .rdc → (unpack w).idx.toNat ≤ 7)

/-- An RRU that accepts command `c` at its next step: idle, and the host presents it and asserts no reset (70 R234). -/
def Accepts (s : State) (c : Command) (rest : List PortInput) : Prop :=
  s.fsr = none ∧ s.resp = [] ∧ ∃ ready, s.inputs = { rst := false, cmd := some c, respReady := ready } :: rest

/-- The port sample of a host that presents one command. -/
def present (c : Command) : PortInput := { cmd := some c }

/-- The port sample of a host that only takes a beat. -/
def takeBeat : PortInput := { respReady := true }

/-- One command at the level of 70 R237: there is a step only from an idle RRU (60 R201), and it gives the next state, its
response taken, and the beats of the response. -/
def commandStep (c : Command) (s : State) : Option (State × List Beat) :=
  if s.idle then
    match runCommand c s with
    | .next t => some ({ t with resp := [] }, t.resp)
    | .fault _ => none
    | .refused _ => none
  else none

/-- A run of a command sequence (70 R237): the state after its last step, which is its first fault at the latest, and the
concatenation of the beats. -/
def runCommands : List Command → State → State × List Beat
  | [], s => (s, [])
  | c :: cs, s =>
    match commandStep c s with
    | none => (s, [])
    | some (t, beats) => ((runCommands cs t).1, beats ++ (runCommands cs t).2)

/-- A run from reset that did not fault (70 R238). -/
def SuccessfulRun (cs : List Command) : Prop := Safe (runCommands cs State.reset).1

/-- What a host drives that presents each command of a sequence once the last is over and takes its beats as they come. -/
def portScript : List Command → State → List PortInput
  | [], _ => []
  | c :: cs, s =>
    match commandStep c s with
    | none => []
    | some (t, beats) => present c :: (List.replicate beats.length takeBeat ++ portScript cs t)

/-- The beat transferred at the next port sample, if one is (70 R235). -/
def transferred (s : State) : List Beat :=
  match s.inputs with
  | [] => []
  | inp :: _ => if !inp.rst && inp.respReady then s.resp.head?.toList else []

/-- The beats transferred in k port samples, in order: the response stream as the host sees it (70 R235, R237). -/
def portStream : Nat → State → List Beat
  | 0, _ => []
  | k + 1, s =>
    transferred s ++
      match step s with
      | .next t => portStream k t
      | .fault _ => []
      | .refused _ => []

/-- The next command of a sequence, run on the value of the one response beat of the last, unless that one faulted. -/
def andThen (o : Host.Outcome State Fault Refusal) (next : Word → Instr) : Host.Outcome State Fault Refusal :=
  match o with
  | .next t =>
    if t.fsr = none then
      match t.resp with
      | [b] => exec (next b.data) t
      | _ => .next t
    else .next t
  | .fault e => .fault e
  | .refused r => .refused r

/-- The three-command sequence of 42 R160: `GET rd, idx`, the scalar reduction of what it answers, and `SET rd, idx` of
what that answers, stopping at a fault. -/
def getReduceSet (reduce : Word → Instr) (rd : BankId) (idx : Index) (s : State) : Host.Outcome State Fault Refusal :=
  andThen (andThen (exec (.get rd idx) s) reduce) (fun r => .set rd idx r)

end Sys2Proof.Machine
end

