-- ==== Sys2Proof/Certificates/Slice0/Obligations.lean ====
section
/-! DEFINITION. The statements about the RRU, each from the numbered rules of spec/ its docstring names. -/

open Sys2Proof Sys2Proof.Machine

/-! ### Encoding (30_encoding) -/

/-- 30 R71, R74, R77: every command comes back from its word, with every operand at every value. -/
def Obligations.DecodeOfEncode : Prop :=
  ∀ i : Instr, i.wellFormed = true → decode (encode i) = .ok i

/-- 30 R75, its consequence: a legal word is the one encoding of the command it decodes to; and the legal words are
exactly those that pass (a) to (d). -/
def Obligations.LegalWordsHaveOneEncoding : Prop :=
  ∀ w : CmdWord,
    (∀ i, decode w = .ok i → i.wellFormed = true ∧ encode i = w) ∧
    ((∃ i, decode w = .ok i) ↔ LegalWord w)

/-- 30 R77 with the mask table of R75: the decoder is the table's, and no word matches two rows. -/
def Obligations.DecodeIsMaskTable : Prop :=
  ∀ w : CmdWord, (decode w).toOption = maskDecode w ∧ (maskRows.filter (rowMatches w)).length ≤ 1

/-- 30 R76: every opcode of the reserved ranges is rejected, whatever the other bits are. That it is
rejected under the name `reservedOp`, ahead of the decoder's other three names, is the model's choice (log entry 14): the
spec has the one result illegal. -/
def Obligations.ReservedOpcodesRejected : Prop :=
  ∀ w : CmdWord, ∀ n, n = (unpack w).op.toNat →
    (n = 0 ∨ (0x04 ≤ n ∧ n ≤ 0x0F) ∨ (0x16 ≤ n ∧ n ≤ 0x20) ∨ (0x24 ≤ n ∧ n ≤ 0x2F) ∨ 0x31 ≤ n) →
      decode w = .error .reservedOp

/-- 30 R81: the spec's worked encodings, legal and illegal. Which of the four names an illegal word is rejected under is the
model's choice (log entry 14). -/
def Obligations.SpecWordsDecode : Prop :=
  decode 0x00000D0201000000#64 = .ok (.barrett 3330#32) ∧
  decode 0xFFFFFFFF02000000#64 = .ok (.mont (BitVec.ofInt 32 (-1))) ∧
  decode 0x0000000103000000#64 = .ok (.tomont 1#32) ∧
  decode 0x0000000010800000#64 = .ok (.zero 2#2) ∧
  decode 0x00000000111000FF#64 = .ok (.get 1#2 255#16) ∧
  decode 0x0000000011100100#64 = .ok (.get 1#2 256#16) ∧
  decode 0xFFFFFFF912C00005#64 = .ok (.set 3#2 5#16 (BitVec.ofInt 32 (-7))) ∧
  decode 0x0000000013840000#64 = .ok (.add 2#2 0#2 1#2) ∧
  decode 0x0000000014240000#64 = .ok (.sub 0#2 2#2 1#2) ∧
  decode 0x0000000013FC0000#64 = .ok (.add 3#2 3#2 3#2) ∧
  decode 0x0000000015200000#64 = .ok (.seq 2#2) ∧
  decode 0x0000000021800011#64 = .ok (.barrettI 2#2 17#16) ∧
  decode 0x0000000022400000#64 = .ok (.montI 1#2 0#16) ∧
  decode 0x0000000023C000FF#64 = .ok (.tomontI 3#2 255#16) ∧
  decode 0x0000000030000005#64 = .ok (.rdc 5#16) ∧
  decode 0x0000000000000000#64 = .error .reservedOp ∧
  decode 0x0000000001000001#64 = .error .unusedField ∧
  decode 0x0000000110800000#64 = .error .unusedField ∧
  decode 0x0000000013850000#64 = .error .reservedBits ∧
  decode 0x0000000030000008#64 = .error .badSelector ∧
  decode 0x0000000004000000#64 = .error .reservedOp

/-! ### The step and the ports (70_reset_and_hazards) -/

/-- 70 R237: a step at which a command that decodes is accepted is that command's meaning, on the state with the command
sampled and the port sample used up. -/
def Obligations.StepRunsDecodedCommand : Prop :=
  ∀ s c rest i, Accepts s c rest → decode c.word = .ok i →
    step s = exec i { s with cmd := c, inputs := rest }

/-- The model's probe (log entry 11): the state with a fetch word runs that word's command, sampled as trusted. -/
def Obligations.FetchWordRunsFirst : Prop :=
  ∀ (s : State) nbits w i, decodeTableWord nbits w = some i →
    step (s.withFetchWord nbits w) =
      exec i { s.madeIdle with cmd := { word := BitVec.ofNat 64 (w % 2 ^ nbits), trusted := true } }

/-- 60 R191: an accepted command raises `IllegalCommand` exactly when its word fails 30 R75, whatever the state and the
trusted bit are; nothing but fault entry then happens. -/
def Obligations.IllegalWordsFault : Prop :=
  ∀ s c rest t, Accepts s c rest → step s = .next t →
    (t.fsr = some .illegalCommand ↔ ¬ LegalWord c.word) ∧
    (¬ LegalWord c.word → t.fsrCode = 1 ∧ t = { s with
      fsr := some .illegalCommand, fcmd := c.word, ftrust := c.trusted,
      resp := [{ data := 0, last := true, err := true }], cmd := c, inputs := rest })

/-- 70 R237, 60 R200, R201: every step of every state answers a next state; a fault of the RRU is one too. That a FAULTED RRU
and a host that drives nothing give a next state with nothing changed is the model's choice (log entries 5 and 9). -/
def Obligations.EveryStepAnswersNext : Prop :=
  ∀ s, ∃ t, step s = .next t

/-- 70 R230: with `rst` sampled, whatever the RRU was doing, no bank is valid, the fault record is clear and no beat is
pending; while `rst` is 1 it is neither ready nor has a beat; and nothing else leaves FAULTED. -/
def Obligations.ResetFromAnyState : Prop :=
  ∀ s inp rest, s.inputs = inp :: rest →
    (inp.rst = true → (outputs true s).cmdReady = false ∧ (outputs true s).beat = none ∧
      ∃ t, step s = .next t ∧ (∀ b, t.valid b = false ∧ t.bank b = none) ∧ t.fsr = none ∧ t.fcmd = 0 ∧
        t.ftrust = false ∧ t.resp = [] ∧ t.inputs = rest ∧ (outputs false t).cmdReady = true) ∧
    (inp.rst = false → ∀ t, s.fsr ≠ none → step s = .next t → t.fsr = s.fsr)

/-- 10 R33: the state after reset, in its fields and at its ports. -/
def Obligations.ResetStateValues : Prop :=
  (∀ b, State.reset.valid b = false ∧ ∀ i, State.reset.readCoeff b i = none) ∧ State.reset.fsrCode = 0 ∧
    State.reset.fcmd = 0 ∧ State.reset.ftrust = false ∧ State.reset.resp = [] ∧
    (outputs false State.reset).cmdReady = true ∧
    ∀ sel : Index, sel.toNat ≤ 7 → ∃ v, constant Config.params sel = some v ∧
      exec (.rdc sel) State.reset = .next (State.reset.respond v)

/-- 70 R234: `cmd_ready` is exactly "idle"; a command presented to a ready RRU is sampled, and one presented otherwise is
as if it were not presented; a ready RRU to which none is presented does nothing. -/
def Obligations.AcceptedExactlyWhenReady : Prop :=
  ∀ s inp rest, s.inputs = inp :: rest →
    ((outputs inp.rst s).cmdReady = true ↔ inp.rst = false ∧ s.fsr = none ∧ s.resp = []) ∧
    (∀ c t, (outputs inp.rst s).cmdReady = true → inp.cmd = some c → step s = .next t → t.cmd = c) ∧
    ((outputs inp.rst s).cmdReady = true → inp.cmd = none → step s = .next { s with inputs := rest }) ∧
    ((outputs inp.rst s).cmdReady = false →
      step s = step { s with inputs := { inp with cmd := none } :: rest } ∧
      ∀ t, inp.rst = false → step s = .next t → t.cmd = s.cmd)

/-- 70 R235: a pending beat stands at the port until the host takes it, and taking it leaves the rest in order. -/
def Obligations.BeatsWaitAndTransfer : Prop :=
  ∀ s inp rest b bs, s.inputs = inp :: rest → inp.rst = false → s.resp = b :: bs →
    (outputs false s).beat = some b ∧
    (inp.respReady = true → step s = .next { s with resp := bs, inputs := rest }) ∧
    (inp.respReady = false → step s = .next { s with inputs := rest })

/-- 70 R235 to R237: an accepted command gives at least one beat, its beats stand at the port in order, and when the host
has taken them all the state is the command's, with nothing pending. That n port samples suffice for n beats is the model's
choice, which has no time (log entry 7). -/
def Obligations.CommandDrainsToIdle : Prop :=
  ∀ s c t rest n, s.fsr = none → s.resp = [] → s.inputs = present c :: (List.replicate n takeBeat ++ rest) →
    step s = .next t → n = t.resp.length →
      0 < n ∧ core.run (n + 1) s = .next { t with resp := [], inputs := rest } ∧
      ∀ k, k < n → ∃ u, core.run (k + 1) s = .next u ∧ (outputs false u).beat = t.resp[k]?

/-- 70 R237: a host that presents the commands of a sequence one after another and takes their beats drives the ports
through exactly the run of that sequence: the same final state and the same response stream. That the host is a list of port
samples, and that a beat is ready at every sample after acceptance, are the model's choices (log entries 5 and 7). -/
def Obligations.PortsRunCommandSequences : Prop :=
  ∀ cs s, s.fsr = none → s.resp = [] →
    core.run (portScript cs s).length { s with inputs := portScript cs s } =
      .next { (runCommands cs s).1 with inputs := [] } ∧
    portStream (portScript cs s).length { s with inputs := portScript cs s } = (runCommands cs s).2

/-- 60 R201: a FAULTED RRU accepts nothing and changes nothing; its error beat waits for the host. That this is
a next state is the model's choice (log entry 9). -/
def Obligations.FaultedStepChangesNothing : Prop :=
  ∀ s inp rest, s.fsr ≠ none → s.inputs = inp :: rest → inp.rst = false →
    (outputs false s).cmdReady = false ∧
    step s = .next { s with resp := if inp.respReady then s.resp.tail else s.resp, inputs := rest }

/-- 60 R201, R203: however long the host goes on without reset, a FAULTED RRU keeps its banks and the record of its first
fault, and is never ready. That these steps are next states is the model's choice (log entries 5 and 9). -/
def Obligations.FaultedUntilReset : Prop :=
  ∀ k s, s.fsr ≠ none → NoReset s →
    ∃ t, core.run k s = .next t ∧ t.banks = s.banks ∧ SameRecord s t ∧ t.cmd = s.cmd ∧ t.resp <:+ s.resp ∧
      ∀ rst, (outputs rst t).cmdReady = false

/-- 10 R35, R27: the mirror pins are copies of the fault record, and the codes are those of R27. -/
def Obligations.PinsMirrorFaultRecord : Prop :=
  ∀ s rst, ((outputs rst s).fault = true ↔ s.fsrCode ≠ 0) ∧ (outputs rst s).fcause = s.fsrCode ∧
    (outputs rst s).fcmd = s.fcmd ∧ (outputs rst s).ftrust = s.ftrust ∧
    (s.fsrCode = 0 ↔ s.fsr = none) ∧ (s.fsrCode = 1 ↔ s.fsr = some .illegalCommand) ∧
    (s.fsrCode = 2 ↔ s.fsr = some .privilegeFault) ∧ (s.fsrCode = 3 ↔ s.fsr = some .uninitBank) ∧
    (s.fsrCode = 4 ↔ s.fsr = some .indexFault) ∧ (s.fsrCode = 5 ↔ s.fsr = some .overflow) ∧
    s.fsrCode.toNat ≤ 5

/-! ### Invariants -/

/-- 10 R34 (c), 30 R78, 60 R201: every step keeps the relations between the fields. -/
def Obligations.StepKeepsWellFormed : Prop :=
  ∀ s t, s.wf → step s = .next t → t.wf

/-- The reset state, with whatever the host will drive, meets the three invariants of this file. -/
def Obligations.ResetMeetsInvariants : Prop :=
  ∀ l, State.wf { State.reset with inputs := l } ∧ RecordTruthful { State.reset with inputs := l } ∧
    AllZero { State.reset with inputs := l }

/-- 60 R196, R199, R203: FCMD and FTRUST go on naming a command that raises exactly the recorded cause. -/
def Obligations.StepKeepsRecordTruthful : Prop :=
  ∀ s t, RecordTruthful s → step s = .next t → RecordTruthful t

/-- 60 R206: while the host presents public commands only, every coefficient of every valid bank stays 0. -/
def Obligations.PublicHostKeepsZero : Prop :=
  ∀ s t, PublicOnly s → AllZero s → step s = .next t → PublicOnly t ∧ AllZero t

/-- 10 R34: the five invariants of every state of every run from reset. -/
def Obligations.ReachableInvariants : Prop :=
  ∀ s, Reachable s →
    (∀ b, s.valid b = true → ∀ i, ∃ x, s.readCoeff b i = some x ∧ InInt32 (dec32 x)) ∧
    s.fsrCode.toNat ≤ 5 ∧
    (s.fsrCode = 0 → s.fcmd = 0 ∧ s.ftrust = false) ∧
    ∀ inp rest t, s.inputs = inp :: rest → inp.rst = false → step s = .next t →
      (∀ b, s.valid b = true → t.valid b = true) ∧
      (s.fsrCode ≠ 0 → t.banks = s.banks ∧ SameRecord s t)

/-! ### Faults and privilege (60_exceptions) -/

/-- 60 R196, R200: a command either completes with the fault record as before, or it is fault entry and nothing else. -/
def Obligations.CompletesOrEntersFault : Prop :=
  ∀ i s, ∃ t, exec i s = .next t ∧ SameHost s t ∧
    ((SameRecord s t ∧ dataBeats t.resp = true ∧ t.resp.length ≤ 256) ∨
     (∃ c, t.fsr = some c ∧ t.fcmd = s.cmd.word ∧ t.ftrust = s.cmd.trusted ∧
       t.resp = [{ data := 0, last := true, err := true }] ∧ ∀ b i, t.readCoeff b i = s.readCoeff b i))

/-- 60 R199: the cause reported is the first of decode, privilege, bank, index, arithmetic that fails, and with none failing
there is no fault. -/
def Obligations.PriorityOfCauses : Prop :=
  (∀ s c rest, Accepts s c rest → ¬ LegalWord c.word → ∃ t, step s = .next t ∧ t.fsr = some .illegalCommand) ∧
  ∀ i s, i.wellFormed = true →
    (privilegeFails i s → exec i s = .next (faultEntry .privilegeFault s)) ∧
    (¬ privilegeFails i s → bankFails i s → exec i s = .next (faultEntry .uninitBank s)) ∧
    (¬ privilegeFails i s → ¬ bankFails i s → indexFails i → exec i s = .next (faultEntry .indexFault s)) ∧
    (¬ privilegeFails i s → ¬ bankFails i s → ¬ indexFails i → arithmeticFails i s →
      exec i s = .next (faultEntry .overflow s)) ∧
    (¬ privilegeFails i s → ¬ bankFails i s → ¬ indexFails i → ¬ arithmeticFails i s →
      ∃ t, exec i s = .next t ∧ SameRecord s t)

/-- 60 R197: the table of which command can raise which cause, both ways; a reserved opcode always raises
`IllegalCommand`. -/
def Obligations.FaultTableIsExact : Prop :=
  (∀ o c, mayRaise o c = true ↔
    ∃ s cmd t, Accepts s cmd [] ∧ (unpack cmd.word).op = o.code ∧ step s = .next t ∧ t.fsr = some c) ∧
  ∀ s cmd rest t, Accepts s cmd rest → (∀ o : Op, (unpack cmd.word).op ≠ o.code) → step s = .next t →
    t.fsr = some .illegalCommand

/-- 60 R192: a restricted command with `cmd_trusted = 0` raises `PrivilegeFault`, and no command raises it otherwise. -/
def Obligations.RestrictedNeedsTrust : Prop :=
  ∀ i s, (i.op.restricted = true → s.cmd.trusted = false → exec i s = .next (faultEntry .privilegeFault s)) ∧
    (∀ t, s.fsr = none → exec i s = .next t → t.fsr = some .privilegeFault →
      i.op.restricted = true ∧ s.cmd.trusted = false)

/-- 60 R205: a public command does the same for both classes; only the recorded trusted bit of a fault can differ. -/
def Obligations.PublicCommandsIgnoreTrust : Prop :=
  ∀ i s trusted t u, i.op.restricted = false → exec i s = .next t →
    exec i { s with cmd := { word := s.cmd.word, trusted := trusted } } = .next u →
      u.banks = t.banks ∧ u.resp = t.resp ∧ u.fsr = t.fsr ∧ u.fcmd = t.fcmd ∧
      (t.fsr = none → u.ftrust = t.ftrust)

/-- 10 R36, 41 R139: a command leaves a bank alone, replaces it whole (ZERO, ADD, SUB), or changes at most the one
coefficient it addresses, and that only as a trusted restricted command. -/
def Obligations.GranularityOfChange : Prop :=
  ∀ i s t b, exec i s = .next t →
    (∀ j, t.readCoeff b j = s.readCoeff b j) ∨
    (i.op.replacesBank = true ∧ i.bankWritten = some b) ∨
    (i.op.restricted = true ∧ s.cmd.trusted = true ∧ i.bankWritten = some b ∧ t.valid b = s.valid b ∧
      ∃ idx, i.indexUsed = some idx ∧ ∀ j : Fin 256, j.val ≠ idx.toNat → t.readCoeff b j = s.readCoeff b j)

/-- 10 R32: what a command answers, which fault it raises and what it writes depend on the banks its row reads only. -/
def Obligations.OtherBanksDoNotMatter : Prop :=
  ∀ i s u t v, s.cmd = u.cmd → s.fsr = none → u.fsr = none → (∀ b ∈ i.banksRead, s.bank b = u.bank b) →
    exec i s = .next t → exec i u = .next v →
      t.resp = v.resp ∧ t.fsr = v.fsr ∧ (t.fsr = none → ∀ b, i.bankWritten = some b → t.bank b = v.bank b)

/-- 20 R54: the commands that only read change no state but the response, and repeated at once they answer the same; ADD and
SUB leave every bank but `rd`, their sources among them, as it was. -/
def Obligations.ReadsHaveNoSideEffect : Prop :=
  (∀ i s t, i.op.readsOnly = true → s.fsr = none → exec i s = .next t → t.fsr = none →
    t = { s with resp := t.resp } ∧ exec i t = .next t) ∧
  ∀ rd ra rb s t, (exec (.add rd ra rb) s = .next t ∨ exec (.sub rd ra rb) s = .next t) →
    ∀ b, b ≠ rd → t.bank b = s.bank b

/-! ### Field reduction (40_field_reduction) -/

/-- 40 R103: `barrett` answers exactly on [-106527, 104862], with the value of R101, and overflows elsewhere. -/
def Obligations.BarrettLegalRange : Prop :=
  ∀ v : Int,
    (¬ barrettOverflows v → barrett Config.params v = .ok (barrettValue v)) ∧
    (barrettOverflows v → barrett Config.params v = .error .overflow)

/-- 40 R102 (a), (b), (d), (e): congruence, the sharp bound, no overflow of the last steps, and the fixed points. -/
def Obligations.BarrettGuarantees : Prop :=
  (∀ v r : Int, barrett Config.params v = .ok r →
    (r - v) % 3329 = 0 ∧ -1665 ≤ r ∧ r ≤ 1665 ∧ InInt32 (v - r) ∧ InInt32 r ∧
    (-1664 ≤ v → v ≤ 1664 → r = v) ∧
    (r ≠ 1665 → r ≠ -1665 → barrett Config.params r = .ok r)) ∧
  barrett Config.params (-104863) = .ok 1665 ∧ barrett Config.params 78231 = .ok (-1665) ∧
  barrett Config.params 1665 = .ok (-1664) ∧ barrett Config.params (-1665) = .ok 1664

/-- 40 R106: `mont` overflows exactly where the difference leaves int32 downward; the sufficient bound and the greatest
faulting operand. -/
def Obligations.MontLegalOperands : Prop :=
  ∀ v : Int, InInt32 v →
    (¬ montOverflows v → mont Config.params v = .ok (montValue v)) ∧
    (montOverflows v → mont Config.params v = .error .overflow) ∧
    (-1929383168 ≤ v → ¬ montOverflows v) ∧ (v = -1929383169 → montOverflows v) ∧
    (v = -2147483648 → ¬ montOverflows v) ∧ (v = -2147483647 → montOverflows v)

/-- 40 R105: the shift is exact, the result is the operand times the inverse of the radix modulo Q, and its range. -/
def Obligations.MontGuarantees : Prop :=
  ∀ v r : Int, InInt32 v → mont Config.params v = .ok r →
    (v - montT Config.params v * 3329) % 65536 = 0 ∧ 0 ≤ montT Config.params v ∧ montT Config.params v ≤ 65535 ∧
    r * 65536 = v - montT Config.params v * 3329 ∧
    (r * 65536 - v) % 3329 = 0 ∧ (r - v * 169) % 3329 = 0 ∧
    v - 218166015 ≤ r * 65536 ∧ r * 65536 ≤ v ∧
    (0 ≤ v → v < 218169344 → -3328 ≤ r ∧ r ≤ 3328) ∧
    (-218169344 < v → v < 0 → -6657 ≤ r ∧ r ≤ -1) ∧
    -32768 ≤ r ∧ r ≤ 32767

/-- 40 R107, R108: where `tomont` answers and what. -/
def Obligations.TomontGuarantees : Prop :=
  (∀ v : Int,
    (¬ tomontOverflows v → tomont Config.params v = .ok (montValue (1353 * v))) ∧
    (tomontOverflows v → tomont Config.params v = .error .overflow) ∧
    (-1425955 ≤ v → v ≤ 1587201 → ¬ tomontOverflows v) ∧
    (v = -1426646 → tomontOverflows v) ∧ (-1426646 < v → v < 0 → ¬ tomontOverflows v) ∧
    (∀ r, tomont Config.params v = .ok r → (r - v * 65536) % 3329 = 0)) ∧
  (∀ a : Int, 0 ≤ a → a < 3329 → 1353 * a ≤ 4502784 ∧ ∃ r,
    tomont Config.params a = .ok r ∧ -3309 ≤ r ∧ r ≤ 59 ∧
    mont Config.params r = .ok (if a = 0 then 0 else a - 3329)) ∧
  (∃ a : Int, 0 ≤ a ∧ a < 3329 ∧ tomont Config.params a = .ok (-3309)) ∧
  ∃ a : Int, 0 ≤ a ∧ a < 3329 ∧ tomont Config.params a = .ok 59

/-- 40 R112: the source's testable properties of the reducers. -/
def Obligations.SourcePropertiesOfReducers : Prop :=
  (∀ v : Int, -106527 ≤ v → v ≤ 104862 →
    ∃ r, barrett Config.params v = .ok r ∧ (r - v) % 3329 = 0 ∧ -1665 ≤ r ∧ r ≤ 1665) ∧
  (∀ a : Int, 0 ≤ a → a < 3329 →
    ∃ m r, tomont Config.params a = .ok m ∧ mont Config.params m = .ok r ∧ (r - a) % 3329 = 0) ∧
  barrett Config.params 3329 = .ok 0 ∧ barrett Config.params 3330 = .ok 1 ∧
  tomont Config.params 1 = .ok (-1044) ∧ mont Config.params (-1044) = .ok (-3328)

/-- 00 R8, R9: for every parameter set that meets R8, whatever the reducers answer is congruent as R102 (a), R105 and
R108 (a) say, and the Montgomery shift is exact. `Params.Ok` adds to R8 that the modulus is positive (log entry 15). -/
def Obligations.ReducersCorrectForAllParams : Prop :=
  ∀ P : Params, P.Ok → ∀ v r : Int,
    (barrett P v = .ok r → (r - v) % P.q = 0) ∧
    (mont P v = .ok r → r * P.montR = v - montT P v * P.q ∧ (r * P.montR - v) % P.q = 0) ∧
    (tomont P v = .ok r → (r - v * P.montR) % P.q = 0)

/-- 40 R101: `BARRETT imm` answers the reduced operand and changes nothing else, or overflows. -/
def Obligations.BarrettCommand : Prop :=
  ∀ imm s, (¬ barrettOverflows (dec32 imm) →
      ∃ z, exec (.barrett imm) s = .next { s with resp := [{ data := z, last := true, err := false }] } ∧
        dec32 z = barrettValue (dec32 imm)) ∧
    (barrettOverflows (dec32 imm) → exec (.barrett imm) s = .next (faultEntry .overflow s))

/-- 40 R104: `MONT imm` answers the reduced operand and changes nothing else, or overflows. -/
def Obligations.MontCommand : Prop :=
  ∀ imm s, (¬ montOverflows (dec32 imm) →
      ∃ z, exec (.mont imm) s = .next { s with resp := [{ data := z, last := true, err := false }] } ∧
        dec32 z = montValue (dec32 imm)) ∧
    (montOverflows (dec32 imm) → exec (.mont imm) s = .next (faultEntry .overflow s))

/-- 40 R107: `TOMONT imm` answers the converted operand and changes nothing else, or overflows. -/
def Obligations.TomontCommand : Prop :=
  ∀ imm s, (¬ tomontOverflows (dec32 imm) →
      ∃ z, exec (.tomont imm) s = .next { s with resp := [{ data := z, last := true, err := false }] } ∧
        dec32 z = montValue (1353 * dec32 imm)) ∧
    (tomontOverflows (dec32 imm) → exec (.tomont imm) s = .next (faultEntry .overflow s))

/-! ### Ring-element commands (41_ring_element) -/

/-- 41 R131: `ZERO rd` always completes: all coefficients of `rd` are 0, it is valid, and nothing else changes. -/
def Obligations.ZeroCommand : Prop :=
  ∀ rd s, ∃ t, exec (.zero rd) s = .next t ∧ (∀ i, t.readCoeff rd i = some 0) ∧ t.valid rd = true ∧
    OneBeat t 0 ∧ FrameBut rd s t

/-- 41 R132: `GET ra, idx` answers the coefficient as stored and changes nothing else; the two faults and their order. -/
def Obligations.GetCommand : Prop :=
  ∀ ra idx s,
    (∀ i x, i.val = idx.toNat → s.readCoeff ra i = some x →
      exec (.get ra idx) s = .next { s with resp := [{ data := x, last := true, err := false }] }) ∧
    (s.valid ra = false → exec (.get ra idx) s = .next (faultEntry .uninitBank s)) ∧
    (s.valid ra = true → 256 ≤ idx.toNat → exec (.get ra idx) s = .next (faultEntry .indexFault s))

/-- 41 R133: a trusted `SET rd, idx, imm` writes the one coefficient, unreduced, and changes nothing else; the three faults
in their priority. -/
def Obligations.SetCommand : Prop :=
  ∀ rd idx imm s,
    (∀ i, i.val = idx.toNat → s.cmd.trusted = true → s.valid rd = true →
      ∃ t, exec (.set rd idx imm) s = .next t ∧ WroteOneCoeff rd i imm s t) ∧
    (s.cmd.trusted = false → exec (.set rd idx imm) s = .next (faultEntry .privilegeFault s)) ∧
    (s.cmd.trusted = true → s.valid rd = false → exec (.set rd idx imm) s = .next (faultEntry .uninitBank s)) ∧
    (s.cmd.trusted = true → s.valid rd = true → 256 ≤ idx.toNat →
      exec (.set rd idx imm) s = .next (faultEntry .indexFault s))

/-- 41 R134: `ADD rd, ra, rb` with every lane in int32 puts the exact sums into `rd`, whichever banks coincide, and changes
nothing else; one lane outside int32, or a source that is not valid, faults and writes no lane. -/
def Obligations.AddCommand : Prop :=
  ∀ rd ra rb s,
    (s.valid ra = true → s.valid rb = true → ¬ laneOverflows (fun x y => x + y) s ra rb →
      ∃ t, exec (.add rd ra rb) s = .next t ∧ t.valid rd = true ∧ OneBeat t 0 ∧ FrameBut rd s t ∧
        ∀ i x y, s.readCoeff ra i = some x → s.readCoeff rb i = some y →
          ∃ z, t.readCoeff rd i = some z ∧ dec32 z = dec32 x + dec32 y) ∧
    (s.valid ra = false ∨ s.valid rb = false → exec (.add rd ra rb) s = .next (faultEntry .uninitBank s)) ∧
    (laneOverflows (fun x y => x + y) s ra rb → exec (.add rd ra rb) s = .next (faultEntry .overflow s))

/-- 41 R135: `SUB rd, ra, rb` likewise with `ra` minus `rb`. -/
def Obligations.SubCommand : Prop :=
  ∀ rd ra rb s,
    (s.valid ra = true → s.valid rb = true → ¬ laneOverflows (fun x y => x - y) s ra rb →
      ∃ t, exec (.sub rd ra rb) s = .next t ∧ t.valid rd = true ∧ OneBeat t 0 ∧ FrameBut rd s t ∧
        ∀ i x y, s.readCoeff ra i = some x → s.readCoeff rb i = some y →
          ∃ z, t.readCoeff rd i = some z ∧ dec32 z = dec32 x - dec32 y) ∧
    (s.valid ra = false ∨ s.valid rb = false → exec (.sub rd ra rb) s = .next (faultEntry .uninitBank s)) ∧
    (laneOverflows (fun x y => x - y) s ra rb → exec (.sub rd ra rb) s = .next (faultEntry .overflow s))

/-- 41 R136: `SEQ ra` answers exactly N beats in index order, the last one marked, and changes nothing else; a bank that is
not valid gives one error beat. -/
def Obligations.SeqCommand : Prop :=
  ∀ ra s,
    (s.valid ra = true → ∃ beats, exec (.seq ra) s = .next { s with resp := beats } ∧ beats.length = 256 ∧
      ∀ k : Fin 256, ∃ x, s.readCoeff ra k = some x ∧
        beats[k.val]? = some { data := x, last := decide (k.val = 255), err := false }) ∧
    (s.valid ra = false → exec (.seq ra) s = .next (faultEntry .uninitBank s))

/-- 20 R56 (a): after a `SET` that completed, `GET` answers the value written there, and elsewhere what it answered
before. -/
def Obligations.ReadAfterWrite : Prop :=
  ∀ rd idx imm s t, s.fsr = none → exec (.set rd idx imm) s = .next t → t.fsr = none →
    exec (.get rd idx) t = .next { t with resp := [{ data := imm, last := true, err := false }] } ∧
    ∀ ra j u v, ¬ (ra = rd ∧ j = idx) → exec (.get ra j) s = .next u → exec (.get ra j) t = .next v →
      v.resp = u.resp ∧ v.fsr = u.fsr

/-- 20 R61: the destination of ADD and SUB does not matter to the result, be it a source or not; `ADD rd, ra, ra` doubles and
`SUB rd, ra, ra` gives the zero ring element. -/
def Obligations.DestinationMayBeASource : Prop :=
  (∀ rd re ra rb s t u, s.fsr = none →
    ((exec (.add rd ra rb) s = .next t → exec (.add re ra rb) s = .next u →
      t.fsr = u.fsr ∧ (t.fsr = none → t.bank rd = u.bank re)) ∧
     (exec (.sub rd ra rb) s = .next t → exec (.sub re ra rb) s = .next u →
      t.fsr = u.fsr ∧ (t.fsr = none → t.bank rd = u.bank re)))) ∧
  (∀ rd ra s t, s.fsr = none → exec (.add rd ra ra) s = .next t → t.fsr = none →
    ∀ i x, s.readCoeff ra i = some x → ∃ z, t.readCoeff rd i = some z ∧ dec32 z = 2 * dec32 x) ∧
  (∀ rd ra s, s.valid ra = true → ∃ t, exec (.sub rd ra ra) s = .next t ∧ SameRecord s t ∧
    ∀ i, t.readCoeff rd i = some 0)

/-- 41 R137: the ring laws, at the commands. -/
def Obligations.RingLaws : Prop :=
  (∀ rd ra rb s, exec (.add rd ra rb) s = exec (.add rd rb ra) s) ∧
  (∀ rd re ra rb rc s t₁ t₂ u₁ u₂, s.fsr = none → re ≠ ra → re ≠ rc →
    exec (.add re ra rb) s = .next t₁ → exec (.add rd re rc) t₁ = .next t₂ → t₂.fsr = none →
    exec (.add re rb rc) s = .next u₁ → exec (.add rd ra re) u₁ = .next u₂ → u₂.fsr = none →
      t₂.bank rd = u₂.bank rd) ∧
  (∀ rd ra rz s, s.valid ra = true → (∀ i, s.readCoeff rz i = some 0) →
    ∃ t, exec (.add rd ra rz) s = .next t ∧ SameRecord s t ∧ t.bank rd = s.bank ra) ∧
  (∀ rd re ra rb s t, s.fsr = none → re ≠ rb → exec (.add re ra rb) s = .next t → t.fsr = none →
    ∃ u, exec (.sub rd re rb) t = .next u ∧ SameRecord t u ∧ u.bank rd = s.bank ra)

/-! ### In-place reduction (42_inplace_reduction) and constants (43_constants_access) -/

/-- 42 R161: a trusted `BARRETT.I rd, idx` reduces the one coefficient and changes nothing else; its four faults in order. -/
def Obligations.BarrettInPlaceCommand : Prop :=
  ∀ rd idx s,
    (∀ i x, i.val = idx.toNat → s.readCoeff rd i = some x → s.cmd.trusted = true →
      (¬ barrettOverflows (dec32 x) → ∃ t z, exec (.barrettI rd idx) s = .next t ∧ WroteOneCoeff rd i z s t ∧
        dec32 z = barrettValue (dec32 x) ∧ (dec32 z - dec32 x) % 3329 = 0 ∧ -1665 ≤ dec32 z ∧ dec32 z ≤ 1665) ∧
      (barrettOverflows (dec32 x) → exec (.barrettI rd idx) s = .next (faultEntry .overflow s))) ∧
    (s.cmd.trusted = false → exec (.barrettI rd idx) s = .next (faultEntry .privilegeFault s)) ∧
    (s.cmd.trusted = true → s.valid rd = false → exec (.barrettI rd idx) s = .next (faultEntry .uninitBank s)) ∧
    (s.cmd.trusted = true → s.valid rd = true → 256 ≤ idx.toNat →
      exec (.barrettI rd idx) s = .next (faultEntry .indexFault s))

/-- 42 R162: `MONT.I rd, idx` likewise with `mont`. -/
def Obligations.MontInPlaceCommand : Prop :=
  ∀ rd idx s,
    (∀ i x, i.val = idx.toNat → s.readCoeff rd i = some x → s.cmd.trusted = true →
      (¬ montOverflows (dec32 x) → ∃ t z, exec (.montI rd idx) s = .next t ∧ WroteOneCoeff rd i z s t ∧
        dec32 z = montValue (dec32 x) ∧ (dec32 z * 65536 - dec32 x) % 3329 = 0) ∧
      (montOverflows (dec32 x) → exec (.montI rd idx) s = .next (faultEntry .overflow s))) ∧
    (s.cmd.trusted = false → exec (.montI rd idx) s = .next (faultEntry .privilegeFault s)) ∧
    (s.cmd.trusted = true → s.valid rd = false → exec (.montI rd idx) s = .next (faultEntry .uninitBank s)) ∧
    (s.cmd.trusted = true → s.valid rd = true → 256 ≤ idx.toNat →
      exec (.montI rd idx) s = .next (faultEntry .indexFault s))

/-- 42 R163: `TOMONT.I rd, idx` likewise with `tomont`. -/
def Obligations.TomontInPlaceCommand : Prop :=
  ∀ rd idx s,
    (∀ i x, i.val = idx.toNat → s.readCoeff rd i = some x → s.cmd.trusted = true →
      (¬ tomontOverflows (dec32 x) → ∃ t z, exec (.tomontI rd idx) s = .next t ∧ WroteOneCoeff rd i z s t ∧
        dec32 z = montValue (1353 * dec32 x) ∧ (dec32 z - dec32 x * 65536) % 3329 = 0) ∧
      (tomontOverflows (dec32 x) → exec (.tomontI rd idx) s = .next (faultEntry .overflow s))) ∧
    (s.cmd.trusted = false → exec (.tomontI rd idx) s = .next (faultEntry .privilegeFault s)) ∧
    (s.cmd.trusted = true → s.valid rd = false → exec (.tomontI rd idx) s = .next (faultEntry .uninitBank s)) ∧
    (s.cmd.trusted = true → s.valid rd = true → 256 ≤ idx.toNat →
      exec (.tomontI rd idx) s = .next (faultEntry .indexFault s))

/-- 42 R160: a trusted in-place command is the sequence GET, scalar reduction, SET: same banks, same answer, and the same
fault where one of the three faults. That a fault records the same word on both sides is the model's choice (log entry 4): `exec`
reads the sampled command in `s.cmd`, and the sequence here samples no words of its own. -/
def Obligations.InPlaceIsGetReduceSet : Prop :=
  ∀ rd idx s, s.cmd.trusted = true → s.fsr = none →
    exec (.barrettI rd idx) s = getReduceSet .barrett rd idx s ∧
    exec (.montI rd idx) s = getReduceSet .mont rd idx s ∧
    exec (.tomontI rd idx) s = getReduceSet .tomont rd idx s

/-- 42 R164: in-place commands on different indices commute. -/
def Obligations.InPlaceCommandsCommute : Prop :=
  ∀ (f g : BankId → Index → Instr) rd j k s t₁ t₂, f ∈ [Instr.barrettI, Instr.montI, Instr.tomontI] →
    g ∈ [Instr.barrettI, Instr.montI, Instr.tomontI] → j ≠ k → s.fsr = none →
    exec (f rd j) s = .next t₁ → exec (g rd k) t₁ = .next t₂ → t₂.fsr = none →
      ∃ u, exec (g rd k) s = .next u ∧ exec (f rd j) u = .next t₂

/-- 43 R181: `RDC sel` answers constant `sel` of the reference set and changes nothing else, and a larger selector is no
command. -/
def Obligations.RdcCommand : Prop :=
  (∀ sel s v, [3329, 256, 26, 20159, 16, 62209, 1353, 4][sel.toNat]? = some v →
    exec (.rdc sel) s = .next { s with resp := [{ data := BitVec.ofNat 32 v, last := true, err := false }] }) ∧
  ∀ w, (unpack w).op = 0x30#8 → 7 < (unpack w).idx.toNat → ∃ e, decode w = .error e
end

