-- ==== Sys2Proof/Laws/Encoding.lean ====
section
/-! SUPPORT. The seven fields and the word determine each other, and the opcodes and their names do (30_encoding R71, R74). -/

namespace Sys2Proof

/-- No field is lost in packing. -/
theorem unpack_pack (f : C64) : unpack (pack f) = f := by
  obtain ⟨imm, op, rd, ra, rb, z, idx⟩ := f
  simp only [unpack, pack, C64.mk.injEq]
  refine ⟨?_, ?_, ?_, ?_, ?_, ?_, ?_⟩ <;>
    · ext j hj
      simp only [BitVec.getElem_extractLsb', BitVec.getLsbD_append]
      grind

/-- No bit of a word is outside the fields. -/
theorem pack_unpack (w : CmdWord) : pack (unpack w) = w := by
  ext j hj
  simp only [unpack, pack]
  grind

@[simp] theorem opOfCode_code (o : Op) : opOfCode o.code = some o := by cases o <;> rfl

/-- The opcode names name the opcodes they come from. -/
theorem code_of_opOfCode {c : BitVec 8} {o : Op} (h : opOfCode c = some o) : c = o.code := by
  unfold opOfCode at h
  split at h <;> first | (cases h; rfl) | (cases h)

end Sys2Proof
end

