-- ==== Sys2Proof/Laws/State.lean ====
section
/-! SUPPORT. What each update of the state does to each field, true by unfolding, so that no later proof unfolds a record
update. -/

namespace Sys2Proof.Machine

section
variable (s : State)

@[simp] theorem State.writeBank_banks (b : BankId) (a : RingElem) : (s.writeBank b a).banks = s.banks.set b.toNat (some a) b.isLt := rfl
@[simp] theorem State.writeBank_fsr (b : BankId) (a : RingElem) : (s.writeBank b a).fsr = s.fsr := rfl
@[simp] theorem State.writeBank_fcmd (b : BankId) (a : RingElem) : (s.writeBank b a).fcmd = s.fcmd := rfl
@[simp] theorem State.writeBank_ftrust (b : BankId) (a : RingElem) : (s.writeBank b a).ftrust = s.ftrust := rfl
@[simp] theorem State.writeBank_resp (b : BankId) (a : RingElem) : (s.writeBank b a).resp = s.resp := rfl
@[simp] theorem State.writeBank_cmd (b : BankId) (a : RingElem) : (s.writeBank b a).cmd = s.cmd := rfl
@[simp] theorem State.writeBank_inputs (b : BankId) (a : RingElem) : (s.writeBank b a).inputs = s.inputs := rfl

@[simp] theorem State.respond_banks (v : Word) : (s.respond v).banks = s.banks := rfl
@[simp] theorem State.respond_fsr (v : Word) : (s.respond v).fsr = s.fsr := rfl
@[simp] theorem State.respond_fcmd (v : Word) : (s.respond v).fcmd = s.fcmd := rfl
@[simp] theorem State.respond_ftrust (v : Word) : (s.respond v).ftrust = s.ftrust := rfl
@[simp] theorem State.respond_resp (v : Word) : (s.respond v).resp = [{ data := v, last := true, err := false }] := rfl
@[simp] theorem State.respond_cmd (v : Word) : (s.respond v).cmd = s.cmd := rfl
@[simp] theorem State.respond_inputs (v : Word) : (s.respond v).inputs = s.inputs := rfl

@[simp] theorem State.respondSeq_banks (vs : List Word) : (s.respondSeq vs).banks = s.banks := rfl
@[simp] theorem State.respondSeq_fsr (vs : List Word) : (s.respondSeq vs).fsr = s.fsr := rfl
@[simp] theorem State.respondSeq_fcmd (vs : List Word) : (s.respondSeq vs).fcmd = s.fcmd := rfl
@[simp] theorem State.respondSeq_ftrust (vs : List Word) : (s.respondSeq vs).ftrust = s.ftrust := rfl
@[simp] theorem State.respondSeq_resp (vs : List Word) : (s.respondSeq vs).resp = beatsOf vs := rfl
@[simp] theorem State.respondSeq_cmd (vs : List Word) : (s.respondSeq vs).cmd = s.cmd := rfl
@[simp] theorem State.respondSeq_inputs (vs : List Word) : (s.respondSeq vs).inputs = s.inputs := rfl

@[simp] theorem State.latch_banks (c : Command) : (s.latch c).banks = s.banks := rfl
@[simp] theorem State.latch_fsr (c : Command) : (s.latch c).fsr = s.fsr := rfl
@[simp] theorem State.latch_fcmd (c : Command) : (s.latch c).fcmd = s.fcmd := rfl
@[simp] theorem State.latch_ftrust (c : Command) : (s.latch c).ftrust = s.ftrust := rfl
@[simp] theorem State.latch_resp (c : Command) : (s.latch c).resp = s.resp := rfl
@[simp] theorem State.latch_cmd (c : Command) : (s.latch c).cmd = c := rfl
@[simp] theorem State.latch_inputs (c : Command) : (s.latch c).inputs = s.inputs := rfl

@[simp] theorem State.madeIdle_banks : (s.madeIdle).banks = s.banks := rfl
@[simp] theorem State.madeIdle_fsr : (s.madeIdle).fsr = none := rfl
@[simp] theorem State.madeIdle_fcmd : (s.madeIdle).fcmd = 0 := rfl
@[simp] theorem State.madeIdle_ftrust : (s.madeIdle).ftrust = false := rfl
@[simp] theorem State.madeIdle_resp : (s.madeIdle).resp = [] := rfl
@[simp] theorem State.madeIdle_cmd : (s.madeIdle).cmd = s.cmd := rfl
@[simp] theorem State.madeIdle_inputs : (s.madeIdle).inputs = s.inputs := rfl

@[simp] theorem faultEntry_banks (c : Cause) : (faultEntry c s).banks = s.banks := rfl
@[simp] theorem faultEntry_fsr (c : Cause) : (faultEntry c s).fsr = some c := rfl
@[simp] theorem faultEntry_fcmd (c : Cause) : (faultEntry c s).fcmd = s.cmd.word := rfl
@[simp] theorem faultEntry_ftrust (c : Cause) : (faultEntry c s).ftrust = s.cmd.trusted := rfl
@[simp] theorem faultEntry_resp (c : Cause) : (faultEntry c s).resp = [errorBeat] := rfl
@[simp] theorem faultEntry_cmd (c : Cause) : (faultEntry c s).cmd = s.cmd := rfl
@[simp] theorem faultEntry_inputs (c : Cause) : (faultEntry c s).inputs = s.inputs := rfl

@[simp] theorem applyReset_banks : (applyReset s).banks = Vector.replicate 4 none := rfl
@[simp] theorem applyReset_fsr : (applyReset s).fsr = none := rfl
@[simp] theorem applyReset_fcmd : (applyReset s).fcmd = 0 := rfl
@[simp] theorem applyReset_ftrust : (applyReset s).ftrust = false := rfl
@[simp] theorem applyReset_resp : (applyReset s).resp = [] := rfl
@[simp] theorem applyReset_cmd : (applyReset s).cmd = { word := 0, trusted := false } := rfl
@[simp] theorem applyReset_inputs : (applyReset s).inputs = s.inputs := rfl

@[simp] theorem takeIllegal_eq : takeIllegal s = faultEntry .illegalCommand s := rfl

@[simp] theorem withInputs_bank (l : List PortInput) (b : BankId) : ({ s with inputs := l } : State).bank b = s.bank b := rfl
@[simp] theorem State.respond_bank (v : Word) (b : BankId) : (s.respond v).bank b = s.bank b := rfl
@[simp] theorem State.respondSeq_bank (vs : List Word) (b : BankId) : (s.respondSeq vs).bank b = s.bank b := rfl
@[simp] theorem State.latch_bank (c : Command) (b : BankId) : (s.latch c).bank b = s.bank b := rfl
@[simp] theorem State.madeIdle_bank (b : BankId) : s.madeIdle.bank b = s.bank b := rfl
@[simp] theorem faultEntry_bank (c : Cause) (b : BankId) : (faultEntry c s).bank b = s.bank b := rfl

@[simp] theorem State.respond_readCoeff (v : Word) (b : BankId) (i : Fin 256) :
    (s.respond v).readCoeff b i = s.readCoeff b i := rfl
@[simp] theorem State.respond_valid (v : Word) (b : BankId) : (s.respond v).valid b = s.valid b := rfl
@[simp] theorem State.respondSeq_readCoeff (vs : List Word) (b : BankId) (i : Fin 256) :
    (s.respondSeq vs).readCoeff b i = s.readCoeff b i := rfl
@[simp] theorem State.respondSeq_valid (vs : List Word) (b : BankId) : (s.respondSeq vs).valid b = s.valid b := rfl
@[simp] theorem State.latch_readCoeff (c : Command) (b : BankId) (i : Fin 256) :
    (s.latch c).readCoeff b i = s.readCoeff b i := rfl
@[simp] theorem State.latch_valid (c : Command) (b : BankId) : (s.latch c).valid b = s.valid b := rfl
@[simp] theorem State.madeIdle_readCoeff (b : BankId) (i : Fin 256) :
    (s.madeIdle).readCoeff b i = s.readCoeff b i := rfl
@[simp] theorem State.madeIdle_valid (b : BankId) : (s.madeIdle).valid b = s.valid b := rfl
@[simp] theorem faultEntry_readCoeff (c : Cause) (b : BankId) (i : Fin 256) :
    (faultEntry c s).readCoeff b i = s.readCoeff b i := rfl
@[simp] theorem faultEntry_valid (c : Cause) (b : BankId) : (faultEntry c s).valid b = s.valid b := rfl
@[simp] theorem withInputs_readCoeff (l : List PortInput) (b : BankId) (i : Fin 256) :
    ({ s with inputs := l } : State).readCoeff b i = s.readCoeff b i := rfl
@[simp] theorem withInputs_valid (l : List PortInput) (b : BankId) : ({ s with inputs := l } : State).valid b = s.valid b := rfl

end

end Sys2Proof.Machine
end

