-- ==== Sys2Proof/Laws/Ops.lean ====
section
/-! SUPPORT. One lemma for each shared operation that says what it can do: the numbers, the banks and coefficients, the checks,
and how a command ends. -/

namespace Sys2Proof.Machine

/-! The numbers (00_scope R10, R14). -/

theorem dec32_eq_toInt (w : Word) : dec32 w = w.toInt := by
  simp only [dec32, BitVec.toInt_eq_toNat_cond]
  split <;> split <;> omega

theorem dec32_inInt32 (w : Word) : InInt32 (dec32 w) := by
  have := w.isLt
  simp only [dec32, InInt32]
  split <;> omega

theorem dec32_enc32 {v : Int} (h : InInt32 v) : dec32 (enc32 v) = v := by
  rw [dec32_eq_toInt, enc32, BitVec.toInt_ofInt]
  exact Int.bmod_eq_of_le (by simp only [InInt32] at h; omega) (by simp only [InInt32] at h; omega)

theorem enc32_dec32 (w : Word) : enc32 (dec32 w) = w := by
  rw [dec32_eq_toInt, enc32, BitVec.ofInt_toInt]

theorem chk32_ok {x : Int} (h : InInt32 x) : chk32 x = .ok x := if_pos h

theorem chk32_error {x : Int} (h : ¬ InInt32 x) : chk32 x = .error .overflow := if_neg h

/-- All `chk32` can do: hand its argument on, in range, or raise `Overflow`. -/
theorem chk32_cases (x : Int) :
    (InInt32 x ∧ chk32 x = .ok x) ∨ (¬ InInt32 x ∧ chk32 x = .error .overflow) := by
  by_cases h : InInt32 x
  · exact .inl ⟨h, chk32_ok h⟩
  · exact .inr ⟨h, chk32_error h⟩

/-! Banks and coefficients (10_state R21 to R23). -/

theorem coeff_ringOfList (l : List Word) (h : l.length = 256) (i : Fin 256) :
    coeff (ringOfList l h) i = l[i.val]'(by rw [h]; exact i.isLt) := by
  simp [coeff, ringOfList]

@[simp] theorem coeff_ringOf (f : Fin 256 → Word) (i : Fin 256) : coeff (ringOf f) i = f i := by
  simp only [ringOf, coeff_ringOfList, List.getElem_ofFn, Fin.eta]

@[simp] theorem coeff_zeroElem (i : Fin 256) : coeff zeroElem i = 0 := by
  simp [coeff, zeroElem]

theorem coeff_setCoeff (a : RingElem) (i j : Fin 256) (v : Word) :
    coeff (setCoeff a i v) j = if i = j then v else coeff a j := by
  simp only [coeff, setCoeff, Fin.getElem_fin, Vector.getElem_set, Fin.ext_iff]

@[simp] theorem coeff_setCoeff_same (a : RingElem) (i : Fin 256) (v : Word) : coeff (setCoeff a i v) i = v := by
  simp [coeff_setCoeff]

/-- Two ring elements with the same coefficients are the same. -/
theorem ring_ext {a b : RingElem} (h : ∀ i, coeff a i = coeff b i) : a = b :=
  Vector.ext fun i hi => h ⟨i, hi⟩

theorem bank_writeBank (s : State) (b b' : BankId) (a : RingElem) :
    (s.writeBank b a).bank b' = if b = b' then some a else s.bank b' := by
  simp only [State.bank, State.writeBank, Vector.getElem_set, BitVec.toNat_inj]

@[simp] theorem bank_writeBank_same (s : State) (b : BankId) (a : RingElem) : (s.writeBank b a).bank b = some a := by
  simp [bank_writeBank]

theorem bank_writeBank_other (s : State) {b b' : BankId} (a : RingElem) (h : b ≠ b') :
    (s.writeBank b a).bank b' = s.bank b' := by
  simp [bank_writeBank, h]

/-- A coefficient reads as a value exactly when its bank holds a ring element with that coefficient. -/
theorem readCoeff_eq_some {s : State} {b : BankId} {i : Fin 256} {x : Word} :
    s.readCoeff b i = some x ↔ ∃ a, s.bank b = some a ∧ coeff a i = x := by
  simp [State.readCoeff]

theorem readCoeff_of_bank {s : State} {b : BankId} {a : RingElem} (h : s.bank b = some a) (i : Fin 256) :
    s.readCoeff b i = some (coeff a i) := by
  simp [State.readCoeff, h]

theorem readCoeff_writeBank (s : State) (b b' : BankId) (a : RingElem) (i : Fin 256) :
    (s.writeBank b a).readCoeff b' i = if b = b' then some (coeff a i) else s.readCoeff b' i := by
  simp only [State.readCoeff, bank_writeBank]
  split <;> rfl

/-- `VALID[b]` is 1 exactly when the bank holds a ring element (10_state R22, R23). -/
theorem valid_iff {s : State} {b : BankId} : s.valid b = true ↔ ∃ a, s.bank b = some a := by
  simp [State.valid, Option.isSome_iff_exists]

theorem not_valid_iff {s : State} {b : BankId} : s.valid b = false ↔ s.bank b = none := by
  simp [State.valid]

/-- Two states' storage is the same when every bank holds the same. -/
theorem banks_ext {s t : State} (h : ∀ b, s.bank b = t.bank b) : s.banks = t.banks := by
  refine Vector.ext fun i hi => ?_
  have := h (BitVec.ofNat 2 i)
  simpa [State.bank, Nat.mod_eq_of_lt hi] using this

@[simp] theorem reset_bank (b : BankId) : State.reset.bank b = none := by
  simp [State.bank, State.reset]

@[simp] theorem applyReset_bank (s : State) (b : BankId) : (applyReset s).bank b = none := reset_bank b

/-! The checks (41 R130, 42 R160). -/

theorem checkTrusted_ok {s : State} (h : s.cmd.trusted = true) : checkTrusted s = .ok () := if_pos h

theorem checkTrusted_error {s : State} (h : s.cmd.trusted = false) : checkTrusted s = .error .privilegeFault := by
  simp [checkTrusted, h]

theorem readBank_ok {s : State} {b : BankId} {a : RingElem} (h : s.bank b = some a) : readBank s b = .ok a := by
  simp [readBank, h]

theorem readBank_error {s : State} {b : BankId} (h : s.bank b = none) : readBank s b = .error .uninitBank := by
  simp [readBank, h]

theorem checkIndex_ok {idx : Index} (h : idx.toNat < 256) : checkIndex idx = .ok ⟨idx.toNat, h⟩ := dif_pos h

theorem checkIndex_error {idx : Index} (h : 256 ≤ idx.toNat) : checkIndex idx = .error .indexFault :=
  dif_neg (Nat.not_lt.mpr h)

/-- The bank check comes before the index check. -/
theorem locate_uninit {s : State} {b : BankId} {idx : Index} (h : s.bank b = none) :
    locate s b idx = .error .uninitBank := by
  simp only [locate, readBank_error h, bind, Except.bind]

theorem locate_index {s : State} {b : BankId} {idx : Index} {a : RingElem} (ha : s.bank b = some a)
    (hi : 256 ≤ idx.toNat) : locate s b idx = .error .indexFault := by
  simp only [locate, readBank_ok ha, checkIndex_error hi, bind, Except.bind]

theorem locate_ok {s : State} {b : BankId} {idx : Index} {a : RingElem} (ha : s.bank b = some a)
    (hi : idx.toNat < 256) : locate s b idx = .ok (a, ⟨idx.toNat, hi⟩) := by
  simp only [locate, readBank_ok ha, checkIndex_ok hi, bind, Except.bind, pure, Except.pure]

/-- Lane i of the results. -/
theorem laneResults_getElem (f : Int → Int → Int) (a b : RingElem) (i : Nat) (h : i < (laneResults f a b).length) :
    (laneResults f a b)[i] =
      f (dec32 (coeff a ⟨i, by simpa [laneResults] using h⟩)) (dec32 (coeff b ⟨i, by simpa [laneResults] using h⟩)) := by
  simp [laneResults, coeff]

/-- Every lane is in range exactly when the check on the list of results passes. -/
theorem laneResults_all (f : Int → Int → Int) (a b : RingElem) :
    (laneResults f a b).all (fun x => decide (InInt32 x)) = true ↔
      ∀ i, InInt32 (f (dec32 (coeff a i)) (dec32 (coeff b i))) := by
  simp only [List.all_eq_true, decide_eq_true_eq]
  constructor
  · intro h i
    have hl : i.val < (laneResults f a b).length := by simp [laneResults]
    have := h _ (List.getElem_mem hl)
    rwa [laneResults_getElem] at this
  · intro h x hx
    obtain ⟨i, hi, rfl⟩ := List.getElem_of_mem hx
    rw [laneResults_getElem]
    exact h _

/-- All lanes in range: every lane has its exact result (41 R134, R135). -/
theorem lanes_ok {f : Int → Int → Int} {a b : RingElem}
    (h : ∀ i, InInt32 (f (dec32 (coeff a i)) (dec32 (coeff b i)))) :
    lanes f a b = .ok (ringOf fun i => enc32 (f (dec32 (coeff a i)) (dec32 (coeff b i)))) := by
  rw [lanes, if_pos ((laneResults_all f a b).mpr h)]
  refine congrArg _ (ring_ext fun i => ?_)
  rw [coeff_ringOf, coeff_ringOfList, List.getElem_map, laneResults_getElem]

/-- One lane out of range: the whole overflows (41 R134, 60 R202). -/
theorem lanes_error {f : Int → Int → Int} {a b : RingElem}
    (h : ∃ i, ¬ InInt32 (f (dec32 (coeff a i)) (dec32 (coeff b i)))) :
    lanes f a b = .error .overflow := by
  rw [lanes, if_neg fun all => h.elim fun i hi => hi ((laneResults_all f a b).mp all i)]

/-! How a command ends (00_scope R13, 60 R200, R202). -/

@[simp] theorem finish_ok (s t : State) : finish s (.ok t) = .next t := rfl

@[simp] theorem finish_error (s : State) (c : Cause) : finish s (.error c) = .next (faultEntry c s) := rfl

/-- All `finish` can do: the command's own next state, or fault entry from the state before the command. -/
theorem finish_cases {s t : State} {r : Except Cause State} (h : finish s r = .next t) :
    r = .ok t ∨ ∃ c, r = .error c ∧ t = faultEntry c s := by
  cases r with
  | ok u => exact .inl (by cases h; rfl)
  | error c => exact .inr ⟨c, rfl, by cases h; rfl⟩

/-! The shared templates of the commands. -/

/-- All a reduction of a pattern can do: the pattern of the reduced number, or what the reduction raises. -/
theorem reduceWord_ok {f : Int → Except Cause Int} {w : Word} {r : Int} (h : f (dec32 w) = .ok r) :
    reduceWord f w = .ok (enc32 r) := by
  simp only [reduceWord, h, Except.map]

theorem reduceWord_error {f : Int → Except Cause Int} {w : Word} {c : Cause} (h : f (dec32 w) = .error c) :
    reduceWord f w = .error c := by
  simp only [reduceWord, h, Except.map]

/-- A scalar command whose reduction answers (40 R100). -/
theorem respondReduced_ok {f : Int → Except Cause Int} {imm : Word} {r : Int} (s : State) (h : f (dec32 imm) = .ok r) :
    respondReduced f imm s = .ok (s.respond (enc32 r)) := by
  simp only [respondReduced, reduceWord_ok h, Except.map]

/-- A scalar command whose reduction raises (40 R100). -/
theorem respondReduced_error {f : Int → Except Cause Int} {imm : Word} {c : Cause} (s : State)
    (h : f (dec32 imm) = .error c) : respondReduced f imm s = .error c := by
  simp only [respondReduced, reduceWord_error h, Except.map]

/-- ADD and SUB when both sources hold a ring element: the lanes decide (41 R134). -/
theorem combineBanks_of_banks {f : Int → Int → Int} {rd ra rb : BankId} {s : State} {a b : RingElem}
    (ha : s.bank ra = some a) (hb : s.bank rb = some b) :
    combineBanks f rd ra rb s = (lanes f a b).map fun c => (s.writeBank rd c).respond 0 := by
  simp only [combineBanks, readBank_ok ha, readBank_ok hb, bind, Except.bind, pure, Except.pure]
  cases lanes f a b <;> rfl

/-- ADD and SUB when a source holds none: `UninitBank` (41 R134). -/
theorem combineBanks_uninit {f : Int → Int → Int} {rd ra rb : BankId} {s : State}
    (h : s.bank ra = none ∨ s.bank rb = none) : combineBanks f rd ra rb s = .error .uninitBank := by
  simp only [combineBanks]
  cases ha : s.bank ra with
  | none => simp only [readBank_error ha]; rfl
  | some a =>
    have hb : s.bank rb = none := h.resolve_left (by simp [ha])
    simp only [readBank_ok ha, readBank_error hb]
    rfl

/-! The restricted update of one coefficient (41 R133, 42 R160), at each of its checks in order. -/

/-- With the first three checks passed, the new value decides. -/
theorem updateCoeff_of_checks {f : Word → Except Cause Word} {rd : BankId} {idx : Index} {s : State} {a : RingElem}
    (ht : s.cmd.trusted = true) (ha : s.bank rd = some a) (hi : idx.toNat < 256) :
    updateCoeff f rd idx s =
      (f (coeff a ⟨idx.toNat, hi⟩)).map fun z =>
        (s.writeBank rd (setCoeff a ⟨idx.toNat, hi⟩ z)).respond 0 := by
  simp only [updateCoeff, checkTrusted_ok ht, locate_ok ha hi, bind, Except.bind, pure, Except.pure]
  cases f (coeff a ⟨idx.toNat, hi⟩) <;> rfl

theorem updateCoeff_privilege {f : Word → Except Cause Word} {rd : BankId} {idx : Index} {s : State}
    (ht : s.cmd.trusted = false) : updateCoeff f rd idx s = .error .privilegeFault := by
  simp only [updateCoeff, checkTrusted_error ht, bind, Except.bind]

theorem updateCoeff_uninit {f : Word → Except Cause Word} {rd : BankId} {idx : Index} {s : State}
    (ht : s.cmd.trusted = true) (ha : s.bank rd = none) : updateCoeff f rd idx s = .error .uninitBank := by
  simp only [updateCoeff, checkTrusted_ok ht, locate_uninit ha, bind, Except.bind]

theorem updateCoeff_index {f : Word → Except Cause Word} {rd : BankId} {idx : Index} {s : State} {a : RingElem}
    (ht : s.cmd.trusted = true) (ha : s.bank rd = some a) (hi : 256 ≤ idx.toNat) :
    updateCoeff f rd idx s = .error .indexFault := by
  simp only [updateCoeff, checkTrusted_ok ht, locate_index ha hi, bind, Except.bind]

/-! Responses (30 R78). -/

@[simp] theorem length_beatsOf : ∀ vs : List Word, (beatsOf vs).length = vs.length
  | [] => rfl
  | [_] => rfl
  | _ :: w :: vs => by simp only [beatsOf, List.length_cons]; exact congrArg (· + 1) (length_beatsOf (w :: vs))

end Sys2Proof.Machine
end

