-- ==== Sys2Proof/Laws/PerInstr.lean ====
section
/-! SUPPORT. A fact about every command as syntax, one lemma per constructor: its word carries its opcode, its reserved bits
are 0 and every field it does not use is 0 (30_encoding R75). -/

namespace Sys2Proof.Laws.EncodedFields

/-- The opcode field is the command's, `z` is 0, and every unused field is 0. -/
def Statement (i : Instr) : Prop :=
  (unpack (encode i)).op = i.op.code ∧ (unpack (encode i)).z = 0 ∧ unusedZero i.op.uses (unpack (encode i)) = true

theorem barrett (imm : Word) : Statement (.barrett imm) := by
  simp [Statement, encode, unpack_pack, fieldsOf, Instr.op, Op.uses, unusedZero]

theorem mont (imm : Word) : Statement (.mont imm) := by
  simp [Statement, encode, unpack_pack, fieldsOf, Instr.op, Op.uses, unusedZero]

theorem tomont (imm : Word) : Statement (.tomont imm) := by
  simp [Statement, encode, unpack_pack, fieldsOf, Instr.op, Op.uses, unusedZero]

theorem zero (rd : BankId) : Statement (.zero rd) := by
  simp [Statement, encode, unpack_pack, fieldsOf, Instr.op, Op.uses, unusedZero]

theorem get (ra : BankId) (idx : Index) : Statement (.get ra idx) := by
  simp [Statement, encode, unpack_pack, fieldsOf, Instr.op, Op.uses, unusedZero]

theorem set (rd : BankId) (idx : Index) (imm : Word) : Statement (.set rd idx imm) := by
  simp [Statement, encode, unpack_pack, fieldsOf, Instr.op, Op.uses, unusedZero]

theorem add (rd ra rb : BankId) : Statement (.add rd ra rb) := by
  simp [Statement, encode, unpack_pack, fieldsOf, Instr.op, Op.uses, unusedZero]

theorem sub (rd ra rb : BankId) : Statement (.sub rd ra rb) := by
  simp [Statement, encode, unpack_pack, fieldsOf, Instr.op, Op.uses, unusedZero]

theorem seq (ra : BankId) : Statement (.seq ra) := by
  simp [Statement, encode, unpack_pack, fieldsOf, Instr.op, Op.uses, unusedZero]

theorem barrettI (rd : BankId) (idx : Index) : Statement (.barrettI rd idx) := by
  simp [Statement, encode, unpack_pack, fieldsOf, Instr.op, Op.uses, unusedZero]

theorem montI (rd : BankId) (idx : Index) : Statement (.montI rd idx) := by
  simp [Statement, encode, unpack_pack, fieldsOf, Instr.op, Op.uses, unusedZero]

theorem tomontI (rd : BankId) (idx : Index) : Statement (.tomontI rd idx) := by
  simp [Statement, encode, unpack_pack, fieldsOf, Instr.op, Op.uses, unusedZero]

theorem rdc (sel : Index) : Statement (.rdc sel) := by
  simp [Statement, encode, unpack_pack, fieldsOf, Instr.op, Op.uses, unusedZero]

end Sys2Proof.Laws.EncodedFields
end

