-- ==== Sys2Proof/Laws/Step.lean ====
section
/-! SUPPORT. What one step can do, said once: nothing, reset, run an accepted command, or the response port
(70 R230, R234, R235, R237). -/

namespace Sys2Proof.Machine

theorem step_nil {s : State} (h : s.inputs = []) : step s = .next s := by
  simp [step, h]

theorem step_cons {s : State} {inp : PortInput} {rest : List PortInput} (h : s.inputs = inp :: rest) :
    step s = stepInput inp { s with inputs := rest } := by
  simp [step, h]

theorem stepInput_reset {inp : PortInput} {s : State} (h : inp.rst = true) :
    stepInput inp s = .next (applyReset s) := if_pos h

/-- A presented command is accepted exactly when the RRU is idle and not in reset (70 R234). -/
theorem acceptedCommand_eq (inp : PortInput) (s : State) :
    acceptedCommand inp s = if inp.rst = false ∧ s.idle = true then inp.cmd else none := by
  simp [acceptedCommand, outputs]

theorem stepInput_accept {inp : PortInput} {s : State} {c : Command} (hr : inp.rst = false) (hi : s.idle = true)
    (hc : inp.cmd = some c) : stepInput inp s = runCommand c s := by
  simp [stepInput, acceptedCommand_eq, hr, hi, hc]

theorem stepInput_transfer {inp : PortInput} {s : State} (hr : inp.rst = false)
    (h : s.idle = false ∨ inp.cmd = none) : stepInput inp s = .next (transferBeat inp s) := by
  rcases h with h | h <;> simp [stepInput, acceptedCommand_eq, hr, h]

/-- All one step can do. -/
theorem step_cases (s : State) :
    (s.inputs = [] ∧ step s = .next s) ∨
    ∃ inp rest, s.inputs = inp :: rest ∧
      ((inp.rst = true ∧ step s = .next (applyReset { s with inputs := rest })) ∨
       (inp.rst = false ∧ s.idle = true ∧ ∃ c, inp.cmd = some c ∧ step s = runCommand c { s with inputs := rest }) ∨
       (inp.rst = false ∧ (s.idle = false ∨ inp.cmd = none) ∧
         step s = .next (transferBeat inp { s with inputs := rest }))) := by
  cases hs : s.inputs with
  | nil => exact .inl ⟨rfl, step_nil hs⟩
  | cons inp rest =>
    refine .inr ⟨inp, rest, rfl, ?_⟩
    rw [step_cons hs]
    have hidle : ({ s with inputs := rest } : State).idle = s.idle := rfl
    cases hr : inp.rst with
    | true => exact .inl ⟨rfl, stepInput_reset hr⟩
    | false =>
      right
      cases hi : s.idle with
      | false => exact .inr ⟨rfl, .inl rfl, stepInput_transfer hr (.inl (hidle.trans hi))⟩
      | true =>
        cases hc : inp.cmd with
        | none => exact .inr ⟨rfl, .inr rfl, stepInput_transfer hr (.inr hc)⟩
        | some c => exact .inl ⟨rfl, rfl, c, rfl, stepInput_accept hr (hidle.trans hi) hc⟩

/-- All an accepted command can be: a command that decodes, or an illegal word (70 R237). -/
theorem runCommand_cases (c : Command) (s : State) :
    (∃ i, decode c.word = .ok i ∧ runCommand c s = exec i (s.latch c)) ∨
    (∃ e, decode c.word = .error e ∧ runCommand c s = .next (faultEntry .illegalCommand (s.latch c))) := by
  simp only [runCommand]
  cases decode c.word with
  | ok i => exact .inl ⟨i, rfl, rfl⟩
  | error e => exact .inr ⟨e, rfl, rfl⟩

/-- A run goes on from the state its first step answers. -/
theorem run_succ {s t : State} (h : step s = .next t) (k : Nat) : core.run (k + 1) s = core.run k t := by
  have : core.step s = .next t := h
  simp only [Host.Core.run, this]

theorem run_zero (s : State) : core.run 0 s = .next s := rfl

end Sys2Proof.Machine
end

