-- ==== Sys2Proof/Machine/Assembler.lean ====
section
/-! DEFINITION. The assembler of 30_encoding R79: one line of text to the command it presents, a word with its trusted bit. Text is
a list of characters. Nothing of the machine depends on it. -/

namespace Sys2Proof.Machine

/-- Blanks between the words of a line. -/
def isBlank (c : Char) : Bool := c == ' ' || c == '\t'

/-- The text without the blanks at either end. -/
def trim (l : List Char) : List Char := ((l.dropWhile isBlank).reverse.dropWhile isBlank).reverse

/-- The pieces of a text between commas; a text with no comma is one piece. -/
def splitCommas : List Char → List (List Char)
  | [] => [[]]
  | c :: cs =>
    match splitCommas cs with
    | [] => [[c]]
    | p :: ps => if c == ',' then [] :: p :: ps else (c :: p) :: ps

/-- The digits of both bases of R79, each at the place that is its value. -/
def digitSigns : List Char := "0123456789ABCDEF".toList

/-- What a sign counts in a base: its place among the base's digits. -/
def digitValue (base : Nat) (sign : Char) : Option Nat := (digitSigns.take base).idxOf? sign.toUpper

/-- The number a row of signs writes in a base, most significant first; no number when one of them is no digit. -/
def numeral (base : Nat) (signs : List Char) : Option Nat :=
  (signs.mapM (digitValue base)).map fun values => values.foldl (fun n v => n * base + v) 0

/-- An unsigned decimal number, of at least one digit. -/
def readDec (l : List Char) : Option Nat := if l = [] then none else numeral 10 l

/-- `idx` and `sel`: decimal 0 to 65535, or `0x` and 1 to 4 hex digits. -/
def readIndex (l : List Char) : Option Index :=
  match l with
  | '0' :: 'x' :: h =>
    if h.isEmpty || 4 < h.length then none else (numeral 16 h).map (BitVec.ofNat 16)
  | _ => (readDec l).bind fun n => if n ≤ 65535 then some (BitVec.ofNat 16 n) else none

/-- `imm`: signed decimal -2147483648 to 2147483647, or `0x` and exactly 8 hex digits (the pattern). -/
def readImm (l : List Char) : Option Word :=
  match l with
  | '0' :: 'x' :: h => if h.length = 8 then (numeral 16 h).map (BitVec.ofNat 32) else none
  | '-' :: d => (readDec d).bind fun n => if n ≤ 2147483648 then some (BitVec.ofInt 32 (-n)) else none
  | _ => (readDec l).bind fun n => if n ≤ 2147483647 then some (BitVec.ofNat 32 n) else none

/-- `r0` to `r3`. -/
def readBankName (l : List Char) : Option BankId :=
  match l with
  | ['r', '0'] => some 0
  | ['r', '1'] => some 1
  | ['r', '2'] => some 2
  | ['r', '3'] => some 3
  | _ => none

/-- The mnemonics (30_encoding R74). -/
def mnemonicOps : List (List Char × Op) := [
  ("BARRETT".toList, .barrett), ("MONT".toList, .mont), ("TOMONT".toList, .tomont), ("ZERO".toList, .zero),
  ("GET".toList, .get), ("SET".toList, .set), ("ADD".toList, .add), ("SUB".toList, .sub), ("SEQ".toList, .seq),
  ("BARRETT.I".toList, .barrettI), ("MONT.I".toList, .montI), ("TOMONT.I".toList, .tomontI), ("RDC".toList, .rdc)]

/-- The operation names of the source that stand for a command (30_encoding R80): other names, not other commands. -/
def sourceNames : Op → List String
  | .barrett => ["reduce (Barrett)", "reduceBarrett"]
  | .mont => ["reduce (Montgomery)", "montgomeryReduce"]
  | .tomont => ["toMontgomeryDomain"]
  | .zero => ["ZERO", "zero constructor"]
  | .get => ["get", "indexing (read)"]
  | .set => ["setInternal", "indexing (mutable)"]
  | .add => ["add", "+"]
  | .sub => ["subtract", "-"]
  | .seq => ["sequential production", "traversal"]
  | .barrettI => []
  | .montI => []
  | .tomontI => []
  | .rdc => []

/-- A three-operand command. -/
def threeBanks (f : BankId → BankId → BankId → Instr) (a b c : List Char) : Option Instr :=
  (readBankName a).bind fun rd => (readBankName b).bind fun ra => (readBankName c).map fun rb => f rd ra rb

/-- A command of a bank and an index. -/
def bankIndex (f : BankId → Index → Instr) (a b : List Char) : Option Instr :=
  (readBankName a).bind fun r => (readIndex b).map fun i => f r i

/-- The operands of a mnemonic, in the order of 30_encoding R74. -/
def readOperands (o : Op) (args : List (List Char)) : Option Instr :=
  match o, args with
  | .barrett, [a] => (readImm a).map .barrett
  | .mont, [a] => (readImm a).map .mont
  | .tomont, [a] => (readImm a).map .tomont
  | .zero, [a] => (readBankName a).map .zero
  | .get, [a, b] => bankIndex .get a b
  | .set, [a, b, c] =>
    (readBankName a).bind fun rd => (readIndex b).bind fun idx => (readImm c).map fun imm => .set rd idx imm
  | .add, [a, b, c] => threeBanks .add a b c
  | .sub, [a, b, c] => threeBanks .sub a b c
  | .seq, [a] => (readBankName a).map .seq
  | .barrettI, [a, b] => bankIndex .barrettI a b
  | .montI, [a, b] => bankIndex .montI a b
  | .tomontI, [a, b] => bankIndex .tomontI a b
  | .rdc, [a] => (readIndex a).map .rdc
  | _, _ => none

/-- The first word of a text and what follows it. -/
def firstWord (l : List Char) : List Char × List Char :=
  let l := l.dropWhile isBlank
  (l.takeWhile (fun c => !isBlank c), l.dropWhile (fun c => !isBlank c))

/-- A mnemonic with its operands. -/
def readCommand (l : List Char) : Option Instr :=
  let w := firstWord l
  (mnemonicOps.lookup w.1).bind fun o => readOperands o ((splitCommas w.2).map trim)

/-- One line: an optional `trusted`, the command, an optional comment after `;`. The word is the encoder's, so unused fields
are 0; `trusted` changes no bit of it (30_encoding R79). -/
def assembleLine (line : List Char) : Option Command :=
  let l := line.takeWhile (· != ';')
  let w := firstWord l
  if w.1 = "trusted".toList then (readCommand w.2).map fun i => { word := encode i, trusted := true }
  else (readCommand l).map fun i => { word := encode i, trusted := false }

end Sys2Proof.Machine
end

