-- ==== Sys2Proof/Tests/Slice0.lean ====
section
/-! SUPPORT. Tests of the model against spec/95_test_vectors.md and 30_encoding R81, and for every statement with hypotheses a
witness that meets them. Every expected number is the spec's. -/

-- The tests are checked one after another: the many small kernel evaluations at once need too many threads.
set_option Elab.async false

namespace Sys2Proof.Machine.Slice0Tests

/-! ### Helpers -/

/-- The state T of 95 section 3.1, with a command sampled as trusted or not. -/
def stateT (trusted : Bool) : State :=
  { State.reset with
    banks := #v[some (setCoeff (setCoeff (setCoeff zeroElem 0 5) 1 (enc32 (-7))) 255 0x7FFFFFFF#32),
      some (setCoeff (setCoeff (setCoeff zeroElem 0 3) 1 0x80000000#32) 255 1), none, none],
    cmd := { word := 0x1234#64, trusted := trusted } }

/-- A state whose four banks hold 0, at a host that has sent a trusted command. -/
def stateZ : State := { stateT true with banks := Vector.replicate 4 (some zeroElem) }

/-- The state after a command, if it is a next state. -/
def after (o : Host.Outcome State Fault Refusal) : Option State :=
  match o with
  | .next t => some t
  | .fault _ => none
  | .refused _ => none

/-- The response beats after a command. -/
def beats (o : Host.Outcome State Fault Refusal) : Option (List Beat) := (after o).map fun t => t.resp

/-- The fault cause recorded after a command. -/
def cause (o : Host.Outcome State Fault Refusal) : Option (Option Cause) := (after o).map fun t => t.fsr

/-- One coefficient after a command. -/
def coeffAfter (o : Host.Outcome State Fault Refusal) (b : BankId) (i : Fin 256) : Option Word :=
  (after o).bind fun t => t.readCoeff b i

/-- A command that answers a next state with no fault. -/
def answersSafe (o : Host.Outcome State Fault Refusal) : Bool := cause o == some none

/-- The one beat of a command that completed. -/
def okBeat (v : Word) : Option (List Beat) := some [{ data := v, last := true, err := false }]

/-- A host presenting one command to a state. -/
def presenting (w : CmdWord) (trusted : Bool) (s : State) : State :=
  { s with inputs := [present { word := w, trusted := trusted }] }

/-- What `answersSafe` says, as the statements' hypotheses have it. -/
theorem next_of_answersSafe {o : Host.Outcome State Fault Refusal} (h : answersSafe o = true) :
    ∃ t, o = .next t ∧ t.fsr = none := by
  cases o with
  | next t => exact ⟨t, rfl, by simpa [answersSafe, cause, after] using h⟩
  | fault e => simp [answersSafe, cause, after] at h
  | refused r => simp [answersSafe, cause, after] at h

/-! ### WellFormed smoke: its one check refuses (30 R75 (d)) -/

theorem test_wellFormed_selector_8_refused : (Instr.rdc 8#16).wellFormed = false := by decide
theorem test_wellFormed_selector_7_accepted : (Instr.rdc 7#16).wellFormed = true := by decide

/-! ### Decoding: words written out from the spec's encoding (30 R81, 95 section 3) -/

theorem test_decode_barrett : decode 0x00000D0201000000#64 = .ok (.barrett 3330#32) := by decide
theorem test_decode_mont : decode 0xFFFFFFFF02000000#64 = .ok (.mont 0xFFFFFFFF#32) := by decide
theorem test_decode_tomont : decode 0x0000000103000000#64 = .ok (.tomont 1#32) := by decide
theorem test_decode_zero : decode 0x0000000010800000#64 = .ok (.zero 2#2) := by decide
theorem test_decode_get : decode 0x00000000111000FF#64 = .ok (.get 1#2 255#16) := by decide
theorem test_decode_set : decode 0xFFFFFFF912C00005#64 = .ok (.set 3#2 5#16 0xFFFFFFF9#32) := by decide
theorem test_decode_add : decode 0x0000000013840000#64 = .ok (.add 2#2 0#2 1#2) := by decide
theorem test_decode_sub : decode 0x0000000014240000#64 = .ok (.sub 0#2 2#2 1#2) := by decide
theorem test_decode_seq : decode 0x0000000015200000#64 = .ok (.seq 2#2) := by decide
theorem test_decode_barrettI : decode 0x0000000021800011#64 = .ok (.barrettI 2#2 17#16) := by decide
theorem test_decode_montI : decode 0x0000000022400000#64 = .ok (.montI 1#2 0#16) := by decide
theorem test_decode_tomontI : decode 0x0000000023C000FF#64 = .ok (.tomontI 3#2 255#16) := by decide
theorem test_decode_rdc : decode 0x0000000030000005#64 = .ok (.rdc 5#16) := by decide
theorem test_decode_all_ones : decode 0xFFFFFFFFFFFFFFFF#64 = .error .reservedOp := by decide
theorem test_decode_mont_z : decode 0x0000000002010000#64 = .error .reservedBits := by decide
theorem test_decode_rdc_rd : decode 0x0000000030400000#64 = .error .unusedField := by decide
theorem test_decode_rdc_8 : decode 0x0000000030000008#64 = .error .badSelector := by decide
theorem test_encode_set : encode (.set 3#2 5#16 0xFFFFFFF9#32) = 0xFFFFFFF912C00005#64 := by decide
theorem test_decodeTableWord : decodeTableWord 64 0x0000000013FC0000 = some (.add 3#2 3#2 3#2) := by decide

/-! ### The assembler (30 R79, R81) -/

theorem test_assemble_set : assembleLine "trusted SET r3, 5, -7 ; write".toList =
    some { word := 0xFFFFFFF912C00005#64, trusted := true } := by decide +kernel
theorem test_assemble_sub : assembleLine "SUB r0, r2, r1".toList =
    some { word := 0x0000000014240000#64, trusted := false } := by decide +kernel
theorem test_assemble_inPlace : assembleLine "trusted BARRETT.I r2, 0x11".toList =
    some { word := 0x0000000021800011#64, trusted := true } := by decide +kernel
theorem test_assemble_index_too_large : assembleLine "GET r1, 65536".toList = none := by decide +kernel

/-! ### One command on state T (95 sections 2 and 3) -/

theorem test_barrett_neg : beats (exec (.barrett 0xFFFFF2FF#32) (stateT false)) = okBeat 0 := by decide +kernel
theorem test_barrett_104863 : cause (exec (.barrett 0x0001999F#32) (stateT false)) = some (some .overflow) := by
  decide +kernel
theorem test_mont_neg3329 : beats (exec (.mont 0xFFFFF2FF#32) (stateT false)) = okBeat 0xFFFFF2FF#32 := by decide +kernel
theorem test_mont_overflow : cause (exec (.mont 0x8CFFF2FF#32) (stateT false)) = some (some .overflow) := by
  decide +kernel
theorem test_tomont_1 : beats (exec (.tomont 1#32) (stateT false)) = okBeat 0xFFFFFBEC#32 := by decide +kernel
theorem test_tomont_second_check : cause (exec (.tomont 0xFFE7C7FF#32) (stateT false)) = some (some .overflow) := by
  decide +kernel
theorem test_zero_fresh_bank : coeffAfter (exec (.zero 3#2) (stateT false)) 3 255 = some 0 := by decide +kernel
theorem test_zero_replaces : coeffAfter (exec (.zero 0#2) (stateT false)) 0 0 = some 0 := by decide +kernel
theorem test_get_last : beats (exec (.get 0#2 255#16) (stateT false)) = okBeat 0x7FFFFFFF#32 := by decide +kernel
theorem test_get_bank_before_index :
    cause (exec (.get 2#2 256#16) (stateT false)) = some (some .uninitBank) := by decide +kernel
theorem test_set_one : coeffAfter (exec (.set 0#2 2#16 0xFFFFFFFF#32) (stateT true)) 0 2 = some 0xFFFFFFFF#32 := by
  decide +kernel
theorem test_set_lowest_code : cause (exec (.set 2#2 256#16 1#32) (stateT false)) = some (some .privilegeFault) := by
  decide +kernel
theorem test_add_lane_overflow : ((after (exec (.add 2#2 0#2 1#2) (stateT false))).map fun t =>
    (t.fsr, t.valid 2)) = some (some .overflow, false) := by decide +kernel
theorem test_add_257 : coeffAfter (exec (.add 2#2 0#2 1#2) { stateT false with banks :=
    #v[some (ringOf fun i => enc32 (i.val + 1)), some (ringOf fun i => enc32 (256 - i.val)), none, none] }) 2 17 =
    some 0x101#32 := by decide +kernel
theorem test_sub_order : coeffAfter (exec (.sub 2#2 1#2 0#2) (stateT false)) 2 255 = some (enc32 (-2147483646)) := by
  decide +kernel
theorem test_sub_into_source : coeffAfter (exec (.sub 1#2 0#2 1#2) (stateT false)) 1 1 = some (enc32 2147483641) := by
  decide +kernel
theorem test_seq_ends : ((beats (exec (.seq 0#2) (stateT false))).map fun l => (l.length, l[1]?, l[255]?)) =
    some (256, some ⟨0xFFFFFFF9#32, false, false⟩, some ⟨0x7FFFFFFF#32, true, false⟩) := by decide +kernel
theorem test_seq_uninit : beats (exec (.seq 3#2) (stateT false)) = some [⟨0, true, true⟩] := by decide +kernel
theorem test_barrettI_keeps_on_fault : ((after (exec (.barrettI 0#2 255#16) (stateT true))).map fun t =>
    (t.fsr, t.readCoeff 0 255)) = some (some .overflow, some 0x7FFFFFFF#32) := by decide +kernel
theorem test_barrettI_index : cause (exec (.barrettI 1#2 256#16) (stateT true)) = some (some .indexFault) := by
  decide +kernel
theorem test_montI : coeffAfter (exec (.montI 1#2 1#16) (stateT true)) 1 1 = some (enc32 (-32768)) := by decide +kernel
theorem test_montI_bank : cause (exec (.montI 2#2 300#16) (stateT true)) = some (some .uninitBank) := by decide +kernel
theorem test_tomontI : coeffAfter (exec (.tomontI 0#2 0#16) (stateT true)) 0 0 = some (enc32 (-1891)) := by
  decide +kernel
theorem test_tomontI_index : cause (exec (.tomontI 0#2 300#16) (stateT true)) = some (some .indexFault) := by
  decide +kernel
theorem test_rdc_5 : beats (exec (.rdc 5#16) State.reset) = okBeat 0xF301#32 := by decide +kernel
theorem test_rdc_7 : beats (exec (.rdc 7#16) State.reset) = okBeat 4#32 := by decide +kernel

/-! ### The step, faults and reset (95 sections 3.4, 3.5, P6; 00 R8) -/

theorem test_params : Config.params.Ok ∧ Config.params.n = 256 ∧ Config.params.nbank = 4 := by decide +kernel
theorem test_fault_record : ((after (step (presenting 0x0000000011200000#64 false (stateT false)))).map fun t =>
    (t.fsrCode, t.fcmd, t.ftrust)) = some (3, 0x0000000011200000#64, false) := by decide +kernel
theorem test_illegal_before_privilege :
    cause (step (presenting 0x0000000121800011#64 false State.reset)) = some (some .illegalCommand) := by decide +kernel
theorem test_reset_bank_unreadable :
    cause (step (presenting 0x000000001100012C#64 false State.reset)) = some (some .uninitBank) := by decide +kernel
theorem test_faulted_ignores : ((after (step { presenting 0x0000000030000000#64 false (stateT false) with
    fsr := some .uninitBank })).map fun t => (t.fsr, t.resp)) = some (some .uninitBank, []) := by decide +kernel
theorem test_fetch_word_runs :
    answersSafe (step (State.reset.withFetchWord 64 0x0000000010800000)) = true := by decide +kernel

/-! ### Witnesses: the hypotheses of each statement hold together somewhere -/

theorem witness_DecodeOfEncode : (Instr.rdc 7#16).wellFormed = true ∧ (Instr.set 3 0xFFFF 0xFFFFFFFF).wellFormed = true := by
  decide
theorem witness_LegalWordsHaveOneEncoding : decode 0x0000000030000007#64 = .ok (.rdc 7) := by decide
theorem witness_ReservedOpcodesRejected :
    ([0x00, 0x04, 0x0F, 0x16, 0x20, 0x24, 0x2F, 0x31, 0xFF].map fun n =>
      (unpack (BitVec.ofNat 64 (n * 16777216))).op.toNat) = [0x00, 0x04, 0x0F, 0x16, 0x20, 0x24, 0x2F, 0x31, 0xFF] := by
  decide
theorem witness_StepRunsDecodedCommand :
    Accepts (presenting 0x0000000010000000#64 false State.reset) { word := 0x0000000010000000#64, trusted := false } [] ∧
    decode 0x0000000010000000#64 = .ok (.zero 0) := ⟨⟨rfl, rfl, false, rfl⟩, by decide⟩
theorem witness_FetchWordRunsFirst : decodeTableWord 64 0x0000000010000000 = some (.zero 0) := by decide
theorem witness_IllegalWordsFault :
    Accepts (presenting 0 true (stateT true)) { word := 0, trusted := true } [] ∧ ¬ LegalWord 0 := by
  refine ⟨⟨rfl, rfl, false, rfl⟩, ?_⟩
  rintro ⟨o, h, -⟩
  cases o <;> exact absurd h (by decide)
theorem witness_IllegalWordsFault_legal : LegalWord 0x0000000030000007#64 :=
  ⟨.rdc, by decide, by decide, by decide, fun _ => by decide⟩
theorem witness_ResetFromAnyState (rst : Bool) :
    ({ stateT true with inputs := [{ rst := rst }], fsr := some .overflow } : State).inputs = [{ rst := rst }] ∧
    cause (step { stateT true with inputs := [{ rst := false }], fsr := some .overflow }) = some (some .overflow) :=
  ⟨rfl, by decide +kernel⟩
theorem witness_ResetStateValues : (0#16).toNat ≤ 7 ∧ (7#16).toNat ≤ 7 := by decide
theorem witness_AcceptedExactlyWhenReady_ready :
    (outputs false (presenting 0x0000000010000000#64 false State.reset)).cmdReady = true ∧
    answersSafe (step (presenting 0x0000000010000000#64 false State.reset)) = true := by decide +kernel
theorem witness_AcceptedExactlyWhenReady_idle :
    (outputs false { stateT true with inputs := [takeBeat] }).cmdReady = true ∧ takeBeat.cmd = none := by decide +kernel
theorem witness_AcceptedExactlyWhenReady_busy :
    (outputs false { stateT true with resp := [errorBeat] }).cmdReady = false ∧
    (outputs false { stateT true with fsr := some .overflow }).cmdReady = false ∧
    (outputs true (stateT true)).cmdReady = false := by decide +kernel
/-- A state with two beats pending and a host that does or does not take one. -/
def pendingState (ready : Bool) : State :=
  { stateT true with resp := beatsOf [1, 2], inputs := [{ respReady := ready }] }
theorem witness_BeatsWaitAndTransfer (ready : Bool) :
    (pendingState ready).inputs = [{ respReady := ready }] ∧
    (pendingState ready).resp = [⟨1, false, false⟩, ⟨2, true, false⟩] := by
  cases ready <;> decide +kernel
/-- A host that presents one public command and then takes n beats. -/
def presentThenTake (w : CmdWord) (n : Nat) (s : State) : State :=
  { s with inputs := present (Command.mk w false) :: (List.replicate n takeBeat ++ []) }
theorem witness_CommandDrainsToIdle :
    beats (step (presentThenTake 0x0000000010000000#64 1 State.reset)) = okBeat 0 := by decide +kernel
theorem witness_CommandDrainsToIdle_seq :
    ((beats (step (presentThenTake 0x0000000015000000#64 256 (stateT false)))).map fun l => l.length) = some 256 := by
  decide +kernel
theorem witness_PortsRunCommandSequences :
    State.reset.fsr = none ∧ State.reset.resp = [] ∧
    (portScript [⟨0x0000000010000000#64, false⟩, ⟨0x0000000015000000#64, false⟩] State.reset).length = 259 := by
  decide +kernel
/-- A FAULTED state with its error beat pending and a command presented. -/
def faultedState (ready : Bool) : State :=
  { stateT false with
    fsr := some .uninitBank, resp := [errorBeat],
    inputs := [{ cmd := some { word := 0x0000000030000000#64, trusted := true }, respReady := ready }] }
theorem witness_FaultedStepChangesNothing (ready : Bool) :
    (faultedState ready).fsr ≠ none ∧ (faultedState ready).inputs.length = 1 ∧
    NoReset (faultedState ready) := by
  refine ⟨by simp [faultedState], rfl, ?_⟩
  simp [NoReset, faultedState]
theorem witness_FaultedUntilReset : (faultedState true).fsr ≠ none ∧ NoReset (faultedState true) :=
  ⟨(witness_FaultedStepChangesNothing true).1, (witness_FaultedStepChangesNothing true).2.2⟩
theorem witness_StepKeepsWellFormed : (stateT true).wf ∧ (pendingState true).wf ∧ (faultedState true).wf ∧
    answersSafe (step (pendingState true)) = true := by decide +kernel
/-- T with a fault recorded. -/
def recordedState (c : Cause) (w : CmdWord) : State := { stateT false with fsr := some c, fcmd := w }
theorem witness_StepKeepsRecordTruthful : RecordTruthful (recordedState .uninitBank 0x0000000011200000#64) := by
  intro c hc
  cases hc
  have hd : decode (recordedState .uninitBank 0x0000000011200000#64).fcmd = .ok (.get 2 0) := by decide
  simp only [hd]
  exact ⟨by decide, by decide, by decide, fun _ => ⟨2, by decide, by decide +kernel⟩, nofun, nofun⟩
theorem witness_StepKeepsRecordTruthful_index : RecordTruthful (recordedState .indexFault 0x0000000011000100#64) := by
  intro c hc
  cases hc
  have hd : decode (recordedState .indexFault 0x0000000011000100#64).fcmd = .ok (.get 0 256) := by decide
  simp only [hd]
  exact ⟨by decide, by decide, by decide, nofun, fun _ => ⟨by unfold bankFails; decide +kernel, 256, rfl, by decide⟩, nofun⟩
/-- Program P6 of 95: `GET r0, 300` on a bank that is not valid raises UninitBank, so IndexFault beside it is not truthful. -/
theorem test_record_not_truthful :
    ¬ RecordTruthful { recordedState .indexFault 0x000000001100012C#64 with banks := State.reset.banks } := by
  intro h
  have hd : decode 0x000000001100012C#64 = .ok (.get 0 300) := by decide
  have h := h .indexFault rfl
  simp only [recordedState, hd] at h
  exact (h.2.2.2.2.1 trivial).1 ⟨0, by decide, by decide +kernel⟩
theorem witness_PublicHostKeepsZero :
    PublicOnly (presenting 0x0000000013840000#64 false stateZ) ∧
    AllZero (presenting 0x0000000013840000#64 false stateZ) := by
  refine ⟨by simp [PublicOnly, presenting, present], ?_⟩
  intro b i x h
  have hb : (presenting 0x0000000013840000#64 false stateZ).bank b = some zeroElem := by
    simp [State.bank, presenting, stateZ]
  simpa [State.readCoeff, hb] using h.symm
theorem witness_ReachableInvariants : Reachable { State.reset with inputs := [{ rst := false }] } := .reset _
theorem witness_PriorityOfCauses_privilege : privilegeFails (.set 0 0 1) (stateT false) := ⟨rfl, rfl⟩
theorem witness_PriorityOfCauses_bank :
    ¬ privilegeFails (.barrettI 3 256) (stateT true) ∧ bankFails (.barrettI 3 256) (stateT true) :=
  ⟨fun h => absurd h.2 (by decide), 3, by simp [Instr.banksRead], by decide +kernel⟩
theorem witness_PriorityOfCauses_index :
    ¬ privilegeFails (.get 0 256) (stateT false) ∧ ¬ bankFails (.get 0 256) (stateT false) ∧
    indexFails (.get 0 256) := by
  refine ⟨fun h => absurd h.1 (by decide), ?_, 256, rfl, by decide⟩
  rintro ⟨b, hb, hv⟩
  simp only [Instr.banksRead, List.mem_singleton] at hb
  subst hb
  exact absurd hv (by decide +kernel)
theorem witness_PriorityOfCauses_arithmetic :
    ¬ privilegeFails (.barrett 104863) (stateT false) ∧ ¬ bankFails (.barrett 104863) (stateT false) ∧
    ¬ indexFails (.barrett 104863) ∧ arithmeticFails (.barrett 104863) (stateT false) := by
  refine ⟨fun h => absurd h.1 (by decide), ?_, ?_, .inr (by decide)⟩
  · rintro ⟨b, hb, -⟩
    simp [Instr.banksRead] at hb
  · rintro ⟨idx, h, -⟩
    simp [Instr.indexUsed] at h
theorem witness_PriorityOfCauses_none :
    ¬ privilegeFails (.zero 0) (stateT false) ∧ ¬ bankFails (.zero 0) (stateT false) ∧ ¬ indexFails (.zero 0) ∧
    ¬ arithmeticFails (.zero 0) (stateT false) := by
  refine ⟨fun h => absurd h.1 (by decide), ?_, ?_, id⟩
  · rintro ⟨b, hb, -⟩
    simp [Instr.banksRead] at hb
  · rintro ⟨idx, h, -⟩
    simp [Instr.indexUsed] at h
theorem witness_FaultTableIsExact :
    Accepts (presenting 0 true (stateT true)) { word := 0, trusted := true } [] ∧
    ∀ o : Op, (unpack 0).op ≠ o.code := ⟨⟨rfl, rfl, false, rfl⟩, fun o => by cases o <;> decide⟩
theorem witness_CompletesOrEntersFault : answersSafe (exec (.zero 0) (stateT false)) = true ∧
    cause (exec (.get 2 0) (stateT false)) = some (some .uninitBank) := by decide +kernel
theorem witness_RestrictedNeedsTrust : (Instr.montI 0 0).op.restricted = true ∧ (stateT false).cmd.trusted = false ∧
    (stateT false).fsr = none ∧ cause (exec (.montI 0 0) (stateT false)) = some (some .privilegeFault) := by
  decide +kernel
theorem witness_PublicCommandsIgnoreTrust : (Instr.add 2 0 1).op.restricted = false ∧
    answersSafe (exec (.sub 2 0 1) (stateT false)) = true ∧ answersSafe (exec (.sub 2 0 1) (stateT true)) = true := by
  decide +kernel
theorem witness_GranularityOfChange : ∃ t, exec (.set 0 2 9) (stateT true) = .next t ∧ t.fsr = none :=
  next_of_answersSafe (by decide +kernel)
theorem witness_OtherBanksDoNotMatter : (stateT true).cmd = stateZ.cmd ∧ (∀ b ∈ (Instr.zero 1).banksRead,
    (stateT true).bank b = stateZ.bank b) ∧ answersSafe (exec (.zero 1) (stateT true)) = true ∧
    answersSafe (exec (.zero 1) stateZ) = true :=
  ⟨rfl, by simp [Instr.banksRead], by decide +kernel, by decide +kernel⟩
theorem witness_ReadsHaveNoSideEffect : (Instr.seq 0).op.readsOnly = true ∧
    answersSafe (exec (.seq 0) (stateT false)) = true := by decide +kernel
theorem witness_BarrettLegalRange : ¬ barrettOverflows (-106527) ∧ ¬ barrettOverflows 104862 ∧
    barrettOverflows (-106528) ∧ barrettOverflows 104863 := by
  simp [barrettOverflows]
theorem witness_BarrettGuarantees : barrett Config.params 104862 = .ok 1663 ∧
    barrett Config.params (-106527) = .ok 1 ∧ barrett Config.params 1664 = .ok 1664 ∧
    barrett Config.params (-1664) = .ok (-1664) := by decide +kernel
theorem witness_MontLegalOperands : ¬ montOverflows 2147483647 ∧ ¬ montOverflows (-1929383168) ∧
    montOverflows (-1929383169) ∧ InInt32 (-2147483648) := by
  unfold montOverflows InInt32
  decide
theorem witness_MontGuarantees : mont Config.params 0 = .ok 0 ∧ mont Config.params 218169343 = .ok 3160 ∧
    mont Config.params (-1) = .ok (-169) ∧ mont Config.params (-2147483648) = .ok (-32768) := by decide +kernel
theorem witness_TomontGuarantees : ¬ tomontOverflows 1587201 ∧ tomontOverflows 1587202 ∧
    ¬ tomontOverflows (-1425955) ∧ tomontOverflows (-1426646) ∧ ¬ tomontOverflows (-1426645) ∧
    tomont Config.params 1587201 = .ok 31828 := by
  unfold tomontOverflows montOverflows
  decide +kernel
theorem witness_ReducersCorrectForAllParams : Config.params.Ok ∧ barrett Config.params 3330 = .ok 1 ∧
    mont Config.params 1353 = .ok (-1044) ∧ tomont Config.params 1 = .ok (-1044) := by decide +kernel
theorem witness_BarrettCommand : ¬ barrettOverflows (dec32 104862) ∧ barrettOverflows (dec32 104863) := by
  unfold barrettOverflows
  decide +kernel
theorem witness_MontCommand : ¬ montOverflows (dec32 0x80000000#32) ∧ montOverflows (dec32 0x80000001#32) := by
  unfold montOverflows
  decide +kernel
theorem witness_TomontCommand : ¬ tomontOverflows (dec32 1587201) ∧ tomontOverflows (dec32 1587202) := by
  unfold tomontOverflows montOverflows
  decide +kernel
theorem witness_GetCommand : (stateT false).readCoeff 0 255 = some 0x7FFFFFFF#32 ∧ (255 : Fin 256).val = (255#16).toNat ∧
    (stateT false).valid 2 = false ∧ (stateT false).valid 1 = true ∧ 256 ≤ (256#16).toNat := by decide +kernel
theorem witness_SetCommand : (stateT true).cmd.trusted = true ∧ (stateT true).valid 0 = true ∧
    (stateT true).valid 3 = false ∧ (stateT false).cmd.trusted = false := by decide +kernel
theorem lane_overflow_T : laneOverflows (fun x y => x + y) (stateT false) 0 1 :=
  ⟨255, 0x7FFFFFFF#32, 1, by decide +kernel, by decide +kernel, by decide +kernel⟩
theorem witness_StepKeepsRecordTruthful_overflow : RecordTruthful (recordedState .overflow 0x0000000013840000#64) := by
  intro c hc
  cases hc
  have hd : decode (recordedState .overflow 0x0000000013840000#64).fcmd = .ok (.add 2 0 1) := by decide
  simp only [hd]
  exact ⟨by decide, by decide, by decide, nofun, nofun,
    fun _ => ⟨by unfold bankFails; decide +kernel, by simp [indexFails, Instr.indexUsed], lane_overflow_T⟩⟩
theorem no_lane_overflow_Z (f : Int → Int → Int) (h : f 0 0 = 0) : ¬ laneOverflows f stateZ 0 1 := by
  rintro ⟨i, x, y, hx, hy, hn⟩
  have hz : ∀ b : BankId, stateZ.bank b = some zeroElem := fun b => by simp [State.bank, stateZ]
  have hx' : x = 0 := by simpa [State.readCoeff, hz] using hx.symm
  have hy' : y = 0 := by simpa [State.readCoeff, hz] using hy.symm
  subst hx' hy'
  exact hn (by simp [dec32, h, InInt32])
theorem witness_AddCommand : stateZ.valid 0 = true ∧ stateZ.valid 1 = true ∧
    ¬ laneOverflows (fun x y => x + y) stateZ 0 1 ∧ (stateT false).valid 2 = false ∧
    laneOverflows (fun x y => x + y) (stateT false) 0 1 :=
  ⟨by decide +kernel, by decide +kernel, no_lane_overflow_Z _ rfl, by decide +kernel, lane_overflow_T⟩
/-- Bank 0 holds the most negative coefficient at index 1 and bank 1 the value 1 there (41 R135). -/
def stateS : State := { stateT false with banks :=
  #v[some (setCoeff zeroElem 1 0x80000000#32), some (setCoeff zeroElem 1 1), none, none] }
theorem witness_SubCommand : ¬ laneOverflows (fun x y => x - y) stateZ 0 1 ∧
    laneOverflows (fun x y => x - y) stateS 0 1 :=
  ⟨no_lane_overflow_Z _ rfl, 1, 0x80000000#32, 1, by decide +kernel, by decide +kernel, by decide +kernel⟩
theorem witness_SeqCommand : (stateT false).valid 1 = true ∧ (stateT false).valid 2 = false := by decide +kernel
theorem witness_ReadAfterWrite : (stateT true).fsr = none ∧
    (∃ t, exec (.set 0 255 9) (stateT true) = .next t ∧ t.fsr = none) ∧
    (∃ u, exec (.get 0 254) (stateT true) = .next u ∧ u.fsr = none) :=
  ⟨rfl, next_of_answersSafe (by decide +kernel), next_of_answersSafe (by decide +kernel)⟩
theorem witness_DestinationMayBeASource : (∃ t, exec (.add 0 0 1) stateZ = .next t ∧ t.fsr = none) ∧
    (∃ t, exec (.sub 1 0 1) stateZ = .next t ∧ t.fsr = none) ∧
    (∃ t, exec (.add 0 0 0) stateZ = .next t ∧ t.fsr = none) ∧ (stateT false).valid 0 = true :=
  ⟨next_of_answersSafe (by decide +kernel), next_of_answersSafe (by decide +kernel),
    next_of_answersSafe (by decide +kernel), by decide +kernel⟩
theorem witness_RingLaws :
    (∃ t, exec (.add 3 0 1) stateZ = .next t ∧ t.fsr = none ∧ ∃ u, exec (.add 2 3 1) t = .next u ∧ u.fsr = none) ∧
    (∃ t, exec (.add 3 1 1) stateZ = .next t ∧ t.fsr = none ∧ ∃ u, exec (.add 2 0 3) t = .next u ∧ u.fsr = none) ∧
    stateZ.valid 0 = true ∧ ∀ i, stateZ.readCoeff 2 i = some 0 := by
  have key : ∀ i j, answersSafe (exec i stateZ) = true →
      ((after (exec i stateZ)).map fun t => answersSafe (exec j t)) = some true →
      ∃ t, exec i stateZ = .next t ∧ t.fsr = none ∧ ∃ u, exec j t = .next u ∧ u.fsr = none := by
    intro i j h₁ h₂
    obtain ⟨t, ht, hf⟩ := next_of_answersSafe h₁
    rw [ht] at h₂
    exact ⟨t, ht, hf, next_of_answersSafe (by simpa [after] using h₂)⟩
  exact ⟨key _ _ (by decide +kernel) (by decide +kernel), key _ _ (by decide +kernel) (by decide +kernel),
    by decide +kernel, fun i => by simp [State.readCoeff, State.bank, stateZ]⟩
theorem witness_BarrettInPlaceCommand : (stateT true).readCoeff 0 1 = some (enc32 (-7)) ∧
    (1 : Fin 256).val = (1#16).toNat ∧ ¬ barrettOverflows (dec32 (enc32 (-7))) ∧
    (stateT true).readCoeff 0 255 = some 0x7FFFFFFF#32 ∧ barrettOverflows (dec32 0x7FFFFFFF#32) ∧
    (stateT true).valid 2 = false := by
  unfold barrettOverflows
  decide +kernel
theorem witness_MontInPlaceCommand : (stateT true).readCoeff 1 1 = some 0x80000000#32 ∧
    ¬ montOverflows (dec32 0x80000000#32) ∧
    coeffAfter (exec (.set 0 0 0x80000001#32) (stateT true)) 0 0 = some 0x80000001#32 ∧
    montOverflows (dec32 0x80000001#32) := by
  unfold montOverflows
  decide +kernel
theorem witness_TomontInPlaceCommand : (stateT true).readCoeff 0 0 = some 5 ∧ ¬ tomontOverflows (dec32 5) ∧
    (stateT true).readCoeff 0 255 = some 0x7FFFFFFF#32 ∧ tomontOverflows (dec32 0x7FFFFFFF#32) := by
  unfold tomontOverflows montOverflows
  decide +kernel
theorem witness_InPlaceIsGetReduceSet : (stateT true).cmd.trusted = true ∧ (stateT true).fsr = none := ⟨rfl, rfl⟩
theorem witness_InPlaceCommandsCommute : (0#16 ≠ 1#16) ∧
    (∃ t, exec (.barrettI 0 0) (stateT true) = .next t ∧ t.fsr = none ∧
      ∃ u, exec (.montI 0 1) t = .next u ∧ u.fsr = none) := by
  refine ⟨by decide, ?_⟩
  obtain ⟨t, ht, hf⟩ := next_of_answersSafe (o := exec (.barrettI 0 0) (stateT true)) (by decide +kernel)
  have h₂ : ((after (exec (.barrettI 0 0) (stateT true))).map fun t => answersSafe (exec (.montI 0 1) t)) = some true := by
    decide +kernel
  rw [ht] at h₂
  exact ⟨t, ht, hf, next_of_answersSafe (by simpa [after] using h₂)⟩
theorem witness_RdcCommand : [3329, 256, 26, 20159, 16, 62209, 1353, 4][(7#16).toNat]? = some 4 ∧
    [3329, 256, 26, 20159, 16, 62209, 1353, 4][(0#16).toNat]? = some 3329 ∧
    (unpack 0x0000000030000008#64).op = 0x30#8 ∧ 7 < (unpack 0x0000000030000008#64).idx.toNat := by decide

end Sys2Proof.Machine.Slice0Tests
end

section
/-! PROOFS. The reducers at every parameter set that meets 00_scope R8 (R9): what each answers, exactly, and the
congruences 40 R102 (a), R105 and R108 (a) state. -/

namespace Sys2Proof.Machine

/-- A computation that checks a number first answers exactly when the number is in range and the rest answers. -/
theorem chk32_bind_eq_ok {α : Type} {x : Int} {f : Int → Except Cause α} {r : α} :
    (chk32 x >>= f) = .ok r ↔ InInt32 x ∧ f x = .ok r := by
  rcases chk32_cases x with ⟨hx, hc⟩ | ⟨hx, hc⟩
  · rw [hc, and_iff_right hx]
    rfl
  · rw [hc]
    exact iff_of_false nofun fun h => hx h.1

/-! What the reducers answer (40 R101, R104, R107). -/

theorem barrett_eq_ok_iff {P : Params} {v r : Int} :
    barrett P v = .ok r ↔
      InInt32 (v * P.barrettMult) ∧ InInt32 (v * P.barrettMult + asr P.barrettR 1) ∧
        v - asr (v * P.barrettMult + asr P.barrettR 1) P.barrettShift * P.q = r := by
  simp only [barrett, chk32_bind_eq_ok, pure, Except.pure, Except.ok.injEq]

theorem mont_eq_ok_iff {P : Params} {v r : Int} :
    mont P v = .ok r ↔
      InInt32 (v - montT P v * P.q) ∧ asr (v - montT P v * P.q) P.montShift = r := by
  simp only [mont, chk32_bind_eq_ok, pure, Except.pure, Except.ok.injEq]

theorem tomont_eq_ok_iff {P : Params} {v r : Int} :
    tomont P v = .ok r ↔ InInt32 (P.montR2 * v) ∧ mont P (P.montR2 * v) = .ok r := by
  simp only [tomont, chk32_bind_eq_ok]

/-! The Montgomery relations of 00_scope R8 (e) and (f), as divisibility. -/

theorem montR_dvd_q_mul_montQinv_sub_one {P : Params} (h : P.Ok) : P.montR ∣ P.q * P.montQinv - 1 := by
  obtain ⟨-, -, -, hinv, -⟩ := h
  exact Int.dvd_self_sub_of_emod_eq hinv

theorem isCoprime_q_montR {P : Params} (h : P.Ok) : IsCoprime P.q P.montR := by
  obtain ⟨k, hk⟩ := montR_dvd_q_mul_montQinv_sub_one h
  exact ⟨P.montQinv, -k, by linear_combination hk⟩

theorem q_dvd_montR2_sub_montR_sq {P : Params} (h : P.Ok) : P.q ∣ P.montR2 - P.montR * P.montR := by
  obtain ⟨-, -, -, -, -, -, hR2, -⟩ := h
  exact dvd_sub_comm.mp (Int.dvd_self_sub_of_emod_eq hR2.symm)

/-- The factor `t` of 40 R104 clears the low bits: `t * Q` is `v` modulo the radix, because `MONT_QINV` inverts Q. -/
theorem montR_dvd_sub_montT_mul_q {P : Params} (h : P.Ok) (v : Int) : P.montR ∣ v - montT P v * P.q := by
  obtain ⟨k, hk⟩ := montR_dvd_q_mul_montQinv_sub_one h
  obtain ⟨j, hj⟩ : P.montR ∣ v * P.montQinv - montT P v := Int.dvd_self_sub_of_emod_eq rfl
  exact ⟨j * P.q - v * k, by linear_combination P.q * hj - v * hk⟩

/-! The congruences (40 R102 (a), R105, R108 (a)). -/

theorem q_dvd_barrett_sub {P : Params} {v r : Int} (hr : barrett P v = .ok r) : P.q ∣ r - v := by
  obtain ⟨-, -, rfl⟩ := barrett_eq_ok_iff.mp hr
  rw [sub_sub_cancel_left, dvd_neg]
  exact dvd_mul_left _ _

/-- The Montgomery shift loses nothing (40 R105 (a)). -/
theorem mont_mul_montR {P : Params} (h : P.Ok) {v r : Int} (hr : mont P v = .ok r) :
    r * P.montR = v - montT P v * P.q := by
  obtain ⟨-, rfl⟩ := mont_eq_ok_iff.mp hr
  exact Int.ediv_mul_cancel (montR_dvd_sub_montT_mul_q h v)

theorem q_dvd_mont_mul_montR_sub {P : Params} (h : P.Ok) {v r : Int} (hr : mont P v = .ok r) :
    P.q ∣ r * P.montR - v := by
  rw [mont_mul_montR h hr, sub_sub_cancel_left, dvd_neg]
  exact dvd_mul_left _ _

/-- `r * MONT_R` is `MONT_R2 * v`, that is `MONT_R * MONT_R * v`, modulo Q; the radix, coprime to Q, cancels. -/
theorem q_dvd_tomont_sub {P : Params} (h : P.Ok) {v r : Int} (hr : tomont P v = .ok r) :
    P.q ∣ r - v * P.montR := by
  obtain ⟨-, hm⟩ := tomont_eq_ok_iff.mp hr
  obtain ⟨k, hk⟩ := q_dvd_mont_mul_montR_sub h hm
  obtain ⟨j, hj⟩ := q_dvd_montR2_sub_montR_sq h
  have hmul : P.q ∣ (r - v * P.montR) * P.montR := ⟨k + v * j, by linear_combination hk + v * hj⟩
  exact (isCoprime_q_montR h).dvd_of_dvd_mul_right hmul

/-- Settles O38: BARRETT subtracts a multiple of Q; `t` makes the Montgomery difference a multiple of the radix; and
TOMONT is that shift on `MONT_R2 * v`, with the radix cancelled modulo Q. -/
theorem reducersCorrectForAllParams : Obligations.ReducersCorrectForAllParams := by
  intro P h v r
  refine ⟨fun hr => ?_, fun hr => ⟨mont_mul_montR h hr, ?_⟩, fun hr => ?_⟩
  · exact Int.emod_eq_zero_of_dvd (q_dvd_barrett_sub hr)
  · exact Int.emod_eq_zero_of_dvd (q_dvd_mont_mul_montR_sub h hr)
  · exact Int.emod_eq_zero_of_dvd (q_dvd_tomont_sub h hr)

end Sys2Proof.Machine
end

section
/-! PROOFS. What one command can do, said once for all thirteen: fault entry, an answer, the replacement of a whole bank,
or the update of one coefficient (10_state R32, R36). The invariants and the frame of the state follow from it. -/

namespace Sys2Proof.Machine

theorem except_map_eq_ok {α β : Type} {r : Except Cause α} {g : α → β} {y : β} :
    r.map g = .ok y ↔ ∃ x, r = .ok x ∧ g x = y := by
  cases r <;> simp [Except.map]

/-- All that command `i` can make of state `s`. -/
inductive CommandEffect (i : Instr) (s : State) : State → Prop where
  /-- Fault entry (60 R200). -/
  | fault (c : Cause) : CommandEffect i s (faultEntry c s)
  /-- Beats of data and nothing else. -/
  | answer (beats : List Beat) (hdata : dataBeats beats = true) (hlength : beats.length ≤ 256) :
      CommandEffect i s { s with resp := beats }
  /-- ZERO, ADD and SUB: a whole bank (41 R131, R134, R135). -/
  | replaceBank (rd : BankId) (a : RingElem) (hop : i.op.replacesBank = true) (hrd : i.bankWritten = some rd) :
      CommandEffect i s ((s.writeBank rd a).respond 0)
  /-- The restricted commands: one coefficient of a bank that was valid (41 R133, 42 R160). -/
  | updateCoeff (rd : BankId) (idx : Index) (a : RingElem) (z : Word) (hop : i.op.restricted = true)
      (htrusted : s.cmd.trusted = true) (hrd : i.bankWritten = some rd) (hidx : i.indexUsed = some idx)
      (ha : s.bank rd = some a) (hlt : idx.toNat < 256) :
      CommandEffect i s ((s.writeBank rd (setCoeff a ⟨idx.toNat, hlt⟩ z)).respond 0)

theorem dataBeats_beatsOf_cons (v : Word) (vs : List Word) : dataBeats (beatsOf (v :: vs)) = true := by
  induction vs generalizing v with
  | nil => rfl
  | cons w vs ih =>
    cases vs with
    | nil => rfl
    | cons w' vs => exact ih w

/-- The response of SEQ, all 256 coefficients, is well shaped (41 R136). -/
theorem dataBeats_beatsOf_toList (a : RingElem) : dataBeats (beatsOf a.toList) = true := by
  cases h : a.toList with
  | nil => simp at h
  | cons v vs => exact dataBeats_beatsOf_cons v vs

/-! What each shared template makes of a state when its checks pass. -/

section
variable {i : Instr} {s t : State}

theorem commandEffect_respond (v : Word) : CommandEffect i s (s.respond v) :=
  .answer [{ data := v, last := true, err := false }] rfl (by simp)

theorem commandEffect_of_respondReduced {f : Int → Except Cause Int} {imm : Word}
    (h : respondReduced f imm s = .ok t) : CommandEffect i s t := by
  obtain ⟨v, -, rfl⟩ := except_map_eq_ok.mp h
  exact commandEffect_respond v

theorem commandEffect_of_combineBanks {f : Int → Int → Int} {rd ra rb : BankId}
    (hop : i.op.replacesBank = true) (hrd : i.bankWritten = some rd)
    (h : combineBanks f rd ra rb s = .ok t) : CommandEffect i s t := by
  cases ha : s.bank ra with
  | none => simp [combineBanks_uninit (.inl ha)] at h
  | some a =>
    cases hb : s.bank rb with
    | none => simp [combineBanks_uninit (.inr hb)] at h
    | some b =>
      rw [combineBanks_of_banks ha hb, except_map_eq_ok] at h
      obtain ⟨c, -, rfl⟩ := h
      exact .replaceBank rd c hop hrd

theorem commandEffect_of_updateCoeff {f : Word → Except Cause Word} {rd : BankId} {idx : Index}
    (hop : i.op.restricted = true) (hrd : i.bankWritten = some rd) (hidx : i.indexUsed = some idx)
    (h : updateCoeff f rd idx s = .ok t) : CommandEffect i s t := by
  cases htrusted : s.cmd.trusted with
  | false => simp [updateCoeff_privilege htrusted] at h
  | true =>
    cases ha : s.bank rd with
    | none => simp [updateCoeff_uninit htrusted ha] at h
    | some a =>
      rcases lt_or_ge idx.toNat 256 with hlt | hge
      · rw [updateCoeff_of_checks htrusted ha hlt, except_map_eq_ok] at h
        obtain ⟨z, -, rfl⟩ := h
        exact .updateCoeff rd idx a z hop htrusted hrd hidx ha hlt
      · simp [updateCoeff_index htrusted ha hge] at h

theorem commandEffect_of_finish {r : Except Cause State} (hok : ∀ u, r = .ok u → CommandEffect i s u)
    (h : finish s r = .next t) : CommandEffect i s t := by
  obtain hr | ⟨c, -, rfl⟩ := finish_cases h
  · exact hok t hr
  · exact .fault c

end

/-- Whatever a command answers is one of the four effects. -/
theorem commandEffect_of_exec {i : Instr} {s t : State} (h : exec i s = .next t) : CommandEffect i s t := by
  cases i with
  | barrett imm => exact commandEffect_of_finish (fun _ => commandEffect_of_respondReduced) h
  | mont imm => exact commandEffect_of_finish (fun _ => commandEffect_of_respondReduced) h
  | tomont imm => exact commandEffect_of_finish (fun _ => commandEffect_of_respondReduced) h
  | zero rd =>
    cases h
    exact .replaceBank rd zeroElem rfl rfl
  | get ra idx =>
    refine commandEffect_of_finish (fun u hu => ?_) h
    obtain ⟨p, -, rfl⟩ := except_map_eq_ok.mp hu
    exact commandEffect_respond _
  | set rd idx imm => exact commandEffect_of_finish (fun _ => commandEffect_of_updateCoeff rfl rfl rfl) h
  | add rd ra rb => exact commandEffect_of_finish (fun _ => commandEffect_of_combineBanks rfl rfl) h
  | sub rd ra rb => exact commandEffect_of_finish (fun _ => commandEffect_of_combineBanks rfl rfl) h
  | seq ra =>
    refine commandEffect_of_finish (fun u hu => ?_) h
    obtain ⟨a, -, rfl⟩ := except_map_eq_ok.mp hu
    exact .answer _ (dataBeats_beatsOf_toList a) (by simp)
  | barrettI rd idx => exact commandEffect_of_finish (fun _ => commandEffect_of_updateCoeff rfl rfl rfl) h
  | montI rd idx => exact commandEffect_of_finish (fun _ => commandEffect_of_updateCoeff rfl rfl rfl) h
  | tomontI rd idx => exact commandEffect_of_finish (fun _ => commandEffect_of_updateCoeff rfl rfl rfl) h
  | rdc sel =>
    refine commandEffect_of_finish (fun u hu => ?_) h
    cases hc : constant Config.params sel with
    | none => simp [hc] at hu
    | some v =>
      obtain rfl : s.respond v = u := by simpa [hc] using hu
      exact commandEffect_respond v

end Sys2Proof.Machine
end

section
/-! PROOFS. The relations between the fault record and the pending response (10_state R34 (c), 30 R78, 60 R201): they hold
after reset and every step keeps them, so every reachable state has them. -/

namespace Sys2Proof.Machine

/-! Each thing a step can do keeps `State.wf`. -/

theorem wf_reset (l : List PortInput) : State.wf { State.reset with inputs := l } :=
  ⟨fun _ => ⟨rfl, rfl, .inl rfl⟩, fun h => absurd rfl h⟩

theorem wf_faultEntry (c : Cause) (s : State) : (faultEntry c s).wf :=
  ⟨nofun, fun _ => .inr rfl⟩

/-- With the first beat taken, the rest of a response is nothing or well shaped. -/
theorem eq_nil_or_dataBeats_of_cons {b : Beat} {bs : List Beat} (h : dataBeats (b :: bs) = true) :
    bs = [] ∨ dataBeats bs = true := by
  cases bs with
  | nil => exact .inl rfl
  | cons b' bs =>
    simp only [dataBeats, Bool.and_eq_true] at h
    exact .inr h.2

theorem wf_tail {s : State} (h : s.wf) : State.wf { s with resp := s.resp.tail } := by
  obtain ⟨hclear, hfaulted⟩ := h
  refine ⟨fun hs => ?_, fun hs => .inl ?_⟩
  · obtain ⟨hfcmd, hftrust, hresp⟩ := hclear hs
    refine ⟨hfcmd, hftrust, ?_⟩
    cases hr : s.resp with
    | nil => exact .inl rfl
    | cons b bs =>
      simp only [hr, reduceCtorEq, false_or, List.length_cons] at hresp
      exact (eq_nil_or_dataBeats_of_cons hresp.1).imp_right fun hbs => ⟨hbs, Nat.le_of_succ_le hresp.2⟩
  · rcases hfaulted hs with hr | hr <;> simp [hr]

theorem wf_transferBeat {s : State} (inp : PortInput) (h : s.wf) : (transferBeat inp s).wf := by
  rw [transferBeat]
  split
  · exact wf_tail h
  · exact h

/-- With no fault recorded, a clear record and one response that is well shaped are all `State.wf` asks. -/
theorem wf_of_clear {s : State} (hfsr : s.fsr = none) (hfcmd : s.fcmd = 0) (hftrust : s.ftrust = false)
    (hdata : dataBeats s.resp = true) (hlength : s.resp.length ≤ 256) : s.wf :=
  ⟨fun _ => ⟨hfcmd, hftrust, .inr ⟨hdata, hlength⟩⟩, fun h => absurd hfsr h⟩

/-- A command started with no fault recorded keeps the relations. -/
theorem wf_of_exec {i : Instr} {s t : State} (hs : s.wf) (hsafe : Safe s) (h : exec i s = .next t) : t.wf := by
  obtain ⟨hfcmd, hftrust, -⟩ := hs.1 hsafe
  cases commandEffect_of_exec h with
  | fault c => exact wf_faultEntry c s
  | answer beats hdata hlength => exact wf_of_clear hsafe hfcmd hftrust hdata hlength
  | replaceBank => exact wf_of_clear hsafe hfcmd hftrust rfl (by simp)
  | updateCoeff => exact wf_of_clear hsafe hfcmd hftrust rfl (by simp)

theorem wf_of_runCommand {c : Command} {s t : State} (hs : s.wf) (hsafe : Safe s)
    (h : runCommand c s = .next t) : t.wf := by
  obtain ⟨i, -, hrun⟩ | ⟨-, -, hrun⟩ := runCommand_cases c s <;> rw [hrun] at h
  · exact wf_of_exec (s := s.latch c) hs hsafe h
  · cases h
    exact wf_faultEntry _ _

/-- Idle is: no fault recorded and no beat pending (70 R236). -/
theorem idle_iff {s : State} : s.idle = true ↔ s.fsr = none ∧ s.resp = [] := by
  simp [State.idle, State.faulted]

theorem wf_of_step {s t : State} (hs : s.wf) (h : step s = .next t) : t.wf := by
  obtain ⟨-, hstep⟩ | ⟨inp, rest, -, ⟨-, hstep⟩ | ⟨-, hidle, c, -, hstep⟩ | ⟨-, -, hstep⟩⟩ := step_cases s <;>
    rw [hstep] at h
  · cases h
    exact hs
  · cases h
    exact wf_reset rest
  · exact wf_of_runCommand (s := { s with inputs := rest }) hs (idle_iff.mp hidle).1 h
  · cases h
    exact wf_transferBeat (s := { s with inputs := rest }) inp hs

/-- Settles O19, from what one step can do. -/
theorem stepKeepsWellFormed : Obligations.StepKeepsWellFormed :=
  fun _ _ => wf_of_step

theorem wf_of_reachable {s : State} (h : Reachable s) : s.wf := by
  induction h with
  | reset l => exact wf_reset l
  | step _ hstep ih => exact wf_of_step ih hstep

/-! The codes of the fault record (10_state R27). -/

theorem fsrCode_eq_zero_iff {s : State} : s.fsrCode = 0 ↔ s.fsr = none := by
  rw [State.fsrCode]
  cases s.fsr with
  | none => simp
  | some c => cases c <;> simp [Cause.code]

theorem code_inj {c d : Cause} : c.code = d.code ↔ c = d := by
  cases c <;> cases d <;> decide

theorem fsrCode_eq_code_iff {s : State} {c : Cause} : s.fsrCode = c.code ↔ s.fsr = some c := by
  rw [State.fsrCode]
  cases s.fsr with
  | none => cases c <;> simp [Cause.code]
  | some d => simp [code_inj]

theorem fsrCode_toNat_le_five (s : State) : s.fsrCode.toNat ≤ 5 := by
  rw [State.fsrCode]
  cases s.fsr with
  | none => decide
  | some c => cases c <;> decide

/-! What a step without reset keeps (10_state R34 (d), (e)). -/

theorem valid_writeBank {s : State} {b b' : BankId} {a : RingElem} (h : s.valid b' = true) :
    (s.writeBank b a).valid b' = true := by
  rw [valid_iff, bank_writeBank]
  split
  · exact ⟨a, rfl⟩
  · exact valid_iff.mp h

theorem valid_of_exec {i : Instr} {s t : State} (h : exec i s = .next t) {b : BankId} (hb : s.valid b = true) :
    t.valid b = true := by
  cases commandEffect_of_exec h with
  | fault | answer => exact hb
  | replaceBank | updateCoeff => exact valid_writeBank hb

theorem valid_of_runCommand {c : Command} {s t : State} (h : runCommand c s = .next t) {b : BankId}
    (hb : s.valid b = true) : t.valid b = true := by
  obtain ⟨i, -, hrun⟩ | ⟨-, -, hrun⟩ := runCommand_cases c s <;> rw [hrun] at h
  · exact valid_of_exec (s := s.latch c) h hb
  · cases h
    exact hb

/-- Taking a beat, or leaving it, changes neither banks nor fault record. -/
theorem transferBeat_keeps_banks_and_record (inp : PortInput) (s : State) :
    (transferBeat inp s).banks = s.banks ∧ SameRecord s (transferBeat inp s) := by
  rw [transferBeat]
  split <;> exact ⟨rfl, rfl, rfl, rfl⟩

/-- A step without reset runs a command from an idle RRU, which clears no `VALID` bit, or changes neither banks nor
fault record. -/
theorem step_without_reset {s t : State} {inp : PortInput} {rest : List PortInput} (hs : s.inputs = inp :: rest)
    (hrst : inp.rst = false) (h : step s = .next t) :
    (s.idle = true ∧ ∀ b, s.valid b = true → t.valid b = true) ∨ (t.banks = s.banks ∧ SameRecord s t) := by
  obtain ⟨hnil, -⟩ | ⟨inp', rest', hs', hcases⟩ := step_cases s
  · simp [hs] at hnil
  · obtain ⟨rfl, rfl⟩ : inp = inp' ∧ rest = rest' := by simpa [hs] using hs'
    obtain ⟨hreset, -⟩ | ⟨-, hidle, c, -, hstep⟩ | ⟨-, -, hstep⟩ := hcases
    · simp [hrst] at hreset
    · rw [hstep] at h
      exact .inl ⟨hidle, fun b hb => valid_of_runCommand (s := { s with inputs := rest }) h hb⟩
    · cases hstep.symm.trans h
      exact .inr (transferBeat_keeps_banks_and_record inp { s with inputs := rest })

theorem valid_of_banks {s t : State} (h : t.banks = s.banks) (b : BankId) : t.valid b = s.valid b := by
  simp only [State.valid, State.bank, h]

/-- Settles O23: the record by the invariant `State.wf` of every reachable state, the rest by what a step can do. -/
theorem reachableInvariants : Obligations.ReachableInvariants := by
  intro s hreach
  refine ⟨fun b hb i => ?_, fsrCode_toNat_le_five s, fun hcode => ?_, fun inp rest t hs hrst hstep => ?_⟩
  · obtain ⟨a, ha⟩ := valid_iff.mp hb
    exact ⟨coeff a i, readCoeff_of_bank ha i, dec32_inInt32 _⟩
  · obtain ⟨hfcmd, hftrust, -⟩ := (wf_of_reachable hreach).1 (fsrCode_eq_zero_iff.mp hcode)
    exact ⟨hfcmd, hftrust⟩
  · obtain ⟨hidle, hvalid⟩ | ⟨hbanks, hrecord⟩ := step_without_reset hs hrst hstep
    · exact ⟨hvalid, fun hcode => absurd (fsrCode_eq_zero_iff.mpr (idle_iff.mp hidle).1) hcode⟩
    · exact ⟨fun b hb => (valid_of_banks hbanks b).trans hb, fun _ => ⟨hbanks, hrecord⟩⟩

end Sys2Proof.Machine
end

section
/-! PROOFS. The frame of a command, both ways: which coefficients it can change (10_state R36), and that nothing but the banks
its row reads decides what it does (R32). -/

namespace Sys2Proof.Machine

theorem readCoeff_writeBank_other (s : State) {b b' : BankId} (a : RingElem) (h : b ≠ b') (j : Fin 256) :
    (s.writeBank b a).readCoeff b' j = s.readCoeff b' j := by
  rw [readCoeff_writeBank, if_neg h]

/-- A bank with one coefficient replaced reads as before everywhere else. -/
theorem readCoeff_writeBank_setCoeff {s : State} {b : BankId} {a : RingElem} (ha : s.bank b = some a)
    {i j : Fin 256} (z : Word) (h : i ≠ j) :
    (s.writeBank b (setCoeff a i z)).readCoeff b j = s.readCoeff b j := by
  rw [readCoeff_writeBank, if_pos rfl, coeff_setCoeff, if_neg h, readCoeff_of_bank ha]

/-- Settles O29: one case per effect of a command. -/
theorem granularityOfChange : Obligations.GranularityOfChange := by
  intro i s t b h
  cases commandEffect_of_exec h with
  | fault | answer => exact .inl fun _ => rfl
  | replaceBank rd a hop hrd =>
    by_cases hb : rd = b
    · exact .inr (.inl ⟨hop, hb ▸ hrd⟩)
    · exact .inl (readCoeff_writeBank_other s a hb)
  | updateCoeff rd idx a z hop htrusted hrd hidx ha hlt =>
    by_cases hb : rd = b
    · subst hb
      have hvalid : s.valid rd = true := valid_iff.mpr ⟨a, ha⟩
      refine .inr (.inr ⟨hop, htrusted, hrd, (valid_writeBank hvalid).trans hvalid.symm, idx, hidx, fun j hj => ?_⟩)
      exact readCoeff_writeBank_setCoeff ha z fun hij => hj (congrArg Fin.val hij).symm
    · exact .inl (readCoeff_writeBank_other s _ hb)

/-! Non-interference (10_state R32). -/

/-- Two runs of the checks and effect of a command that raise the same cause, or complete with the same response, the same
`FSR.CAUSE` and the same content of the bank written. -/
inductive SameAnswer (written : Option BankId) : Except Cause State → Except Cause State → Prop where
  | fault (c : Cause) : SameAnswer written (.error c) (.error c)
  | completion {t v : State} (hresp : t.resp = v.resp) (hfsr : t.fsr = v.fsr)
      (hbank : ∀ b, written = some b → t.bank b = v.bank b) : SameAnswer written (.ok t) (.ok v)

section
variable {written : Option BankId} {s u : State}

/-- A check that answers the same in both runs leaves it to what follows. -/
theorem SameAnswer.bind {α : Type} (r : Except Cause α) {g h : α → Except Cause State}
    (hgh : ∀ x, SameAnswer written (g x) (h x)) : SameAnswer written (r >>= g) (r >>= h) := by
  cases r with
  | error c => exact .fault c
  | ok x => exact hgh x

theorem SameAnswer.map {α : Type} (r : Except Cause α) {g h : α → State}
    (hgh : ∀ x, SameAnswer written (.ok (g x)) (.ok (h x))) : SameAnswer written (r.map g) (r.map h) := by
  cases r with
  | error c => exact .fault c
  | ok x => exact hgh x

/-- A command that only answers writes no bank. -/
theorem sameAnswer_resp (hfsr : s.fsr = u.fsr) (beats : List Beat) :
    SameAnswer none (.ok { s with resp := beats }) (.ok { u with resp := beats }) :=
  .completion rfl hfsr nofun

theorem sameAnswer_writeBank (hfsr : s.fsr = u.fsr) (rd : BankId) (a : RingElem) (v : Word) :
    SameAnswer (some rd) (.ok ((s.writeBank rd a).respond v)) (.ok ((u.writeBank rd a).respond v)) :=
  .completion rfl hfsr fun b hb => by
    cases hb
    simp

/-! The checks and templates of a command see the sampled trusted bit and the banks they name, and nothing else. -/

theorem checkTrusted_congr (hcmd : s.cmd = u.cmd) : checkTrusted s = checkTrusted u := by
  simp only [checkTrusted, hcmd]

theorem readBank_congr {b : BankId} (hb : s.bank b = u.bank b) : readBank s b = readBank u b := by
  simp only [readBank, hb]

theorem locate_congr {b : BankId} (hb : s.bank b = u.bank b) (idx : Index) : locate s b idx = locate u b idx := by
  simp only [locate, readBank_congr hb]

theorem sameAnswer_respondReduced (hfsr : s.fsr = u.fsr) (f : Int → Except Cause Int) (imm : Word) :
    SameAnswer none (respondReduced f imm s) (respondReduced f imm u) :=
  .map _ fun _ => sameAnswer_resp hfsr _

theorem sameAnswer_combineBanks (hfsr : s.fsr = u.fsr) {ra rb : BankId} (hra : s.bank ra = u.bank ra)
    (hrb : s.bank rb = u.bank rb) (f : Int → Int → Int) (rd : BankId) :
    SameAnswer (some rd) (combineBanks f rd ra rb s) (combineBanks f rd ra rb u) := by
  simp only [combineBanks, readBank_congr hra, readBank_congr hrb]
  exact .bind _ fun _ => .bind _ fun _ => .bind _ fun _ => sameAnswer_writeBank hfsr rd _ 0

theorem sameAnswer_updateCoeff (hcmd : s.cmd = u.cmd) (hfsr : s.fsr = u.fsr) {rd : BankId}
    (hrd : s.bank rd = u.bank rd) (f : Word → Except Cause Word) (idx : Index) :
    SameAnswer (some rd) (updateCoeff f rd idx s) (updateCoeff f rd idx u) := by
  simp only [updateCoeff, checkTrusted_congr hcmd, locate_congr hrd]
  exact .bind _ fun _ => .bind _ fun _ => .bind _ fun _ => sameAnswer_writeBank hfsr rd _ 0

/-- What two commands that answer the same look like after they ended. -/
theorem SameAnswer.of_finish {r r' : Except Cause State} (h : SameAnswer written r r') {t v : State}
    (ht : finish s r = .next t) (hv : finish u r' = .next v) :
    t.resp = v.resp ∧ t.fsr = v.fsr ∧ (t.fsr = none → ∀ b, written = some b → t.bank b = v.bank b) := by
  cases h with
  | fault c =>
    cases ht
    cases hv
    exact ⟨rfl, rfl, nofun⟩
  | completion hresp hfsr hbank =>
    cases ht
    cases hv
    exact ⟨hresp, hfsr, fun _ => hbank⟩

end

/-- Settles O30: each command's template gives the same answer in both states. -/
theorem otherBanksDoNotMatter : Obligations.OtherBanksDoNotMatter := by
  intro i s u t v hcmd hs hu hbanks ht hv
  have hfsr : s.fsr = u.fsr := hs.trans hu.symm
  cases i with
  | barrett imm => exact (sameAnswer_respondReduced hfsr _ imm).of_finish ht hv
  | mont imm => exact (sameAnswer_respondReduced hfsr _ imm).of_finish ht hv
  | tomont imm => exact (sameAnswer_respondReduced hfsr _ imm).of_finish ht hv
  | zero rd => exact (sameAnswer_writeBank hfsr rd zeroElem 0).of_finish (s := s) (u := u) ht hv
  | get ra idx =>
    have hra := hbanks ra (by simp [Instr.banksRead])
    refine SameAnswer.of_finish ?_ ht hv
    rw [locate_congr hra]
    exact .map _ fun _ => sameAnswer_resp hfsr _
  | seq ra =>
    have hra := hbanks ra (by simp [Instr.banksRead])
    refine SameAnswer.of_finish ?_ ht hv
    rw [readBank_congr hra]
    exact .map _ fun _ => sameAnswer_resp hfsr _
  | rdc sel =>
    refine SameAnswer.of_finish ?_ ht hv
    cases constant Config.params sel with
    | none => exact .fault _
    | some c => exact sameAnswer_resp hfsr _
  | add rd ra rb | sub rd ra rb =>
    have hra := hbanks ra (by simp [Instr.banksRead])
    have hrb := hbanks rb (by simp [Instr.banksRead])
    exact (sameAnswer_combineBanks hfsr hra hrb _ rd).of_finish ht hv
  | set rd idx imm | barrettI rd idx | montI rd idx | tomontI rd idx =>
    have hrd := hbanks rd (by simp [Instr.banksRead])
    exact (sameAnswer_updateCoeff hcmd hfsr hrd _ idx).of_finish ht hv

end Sys2Proof.Machine
end

section
/-! PROOFS. The probe state, the reset state and the mirror pins (10_state R25, R33, R35; 70 R237). -/

namespace Sys2Proof.Machine

/-- A command presented to an RRU that accepts it is run (70 R237). -/
theorem step_of_accepts {s : State} {c : Command} {rest : List PortInput} (h : Accepts s c rest) :
    step s = runCommand c { s with inputs := rest } := by
  obtain ⟨hfsr, hresp, ready, hinputs⟩ := h
  rw [step_cons hinputs]
  exact stepInput_accept rfl (idle_iff.mpr ⟨hfsr, hresp⟩) rfl

theorem runCommand_of_decode {c : Command} {i : Instr} (s : State) (h : decode c.word = .ok i) :
    runCommand c s = exec i (s.latch c) := by
  rw [runCommand, h]

theorem decode_of_decodeTableWord {nbits w : Nat} {i : Instr} (h : decodeTableWord nbits w = some i) :
    decode (wordOfNat nbits w) = .ok i := by
  rw [decodeTableWord] at h
  cases hd : decode (wordOfNat nbits w) with
  | error e => simp [hd, Except.toOption] at h
  | ok j => simpa [hd, Except.toOption] using h

/-- The probe state accepts the probed word, presented as trusted. -/
theorem accepts_withFetchWord (s : State) (nbits w : Nat) :
    Accepts (s.withFetchWord nbits w) { word := wordOfNat nbits w, trusted := true } s.inputs :=
  ⟨rfl, rfl, false, rfl⟩

/-- Settles O7: the probe state accepts the word, and accepting a word that decodes runs its command. -/
theorem fetchWordRunsFirst : Obligations.FetchWordRunsFirst := by
  intro s nbits w i h
  have hdecode := decode_of_decodeTableWord h
  exact (step_of_accepts (accepts_withFetchWord s nbits w)).trans (runCommand_of_decode _ hdecode)

/-! The reset state (10_state R33). -/

theorem reset_readCoeff (b : BankId) (i : Fin 256) : State.reset.readCoeff b i = none := by
  simp [State.readCoeff]

theorem constant_isSome {sel : Index} (h : sel.toNat ≤ 7) (P : Params) : ∃ v, constant P sel = some v := by
  simp only [constant]
  generalize sel.toNat = n at h
  interval_cases n <;> exact ⟨_, rfl⟩

theorem exec_rdc_of_constant {sel : Index} {v : Word} (s : State) (h : constant Config.params sel = some v) :
    exec (.rdc sel) s = .next (s.respond v) := by
  simp only [exec, execRdc, h, finish_ok]

/-- Settles O11: the fields by evaluation, each wired constant by its row of `CONST`. -/
theorem resetStateValues : Obligations.ResetStateValues := by
  refine ⟨fun b => ⟨not_valid_iff.mpr (reset_bank b), reset_readCoeff b⟩, rfl, rfl, rfl, rfl, rfl, fun sel hsel => ?_⟩
  obtain ⟨v, hv⟩ := constant_isSome hsel Config.params
  exact ⟨v, hv, exec_rdc_of_constant State.reset hv⟩

/-- Settles O20: no fault is recorded after reset, and no bank has a coefficient to read. -/
theorem resetMeetsInvariants : Obligations.ResetMeetsInvariants := by
  refine fun l => ⟨wf_reset l, nofun, fun b i x hx => ?_⟩
  rw [withInputs_readCoeff, reset_readCoeff] at hx
  cases hx

/-! The mirror pins (10_state R35). -/

theorem outputs_fault_iff (rst : Bool) (s : State) : (outputs rst s).fault = true ↔ s.fsrCode ≠ 0 := by
  rw [ne_eq, fsrCode_eq_zero_iff, ← ne_eq, ← Option.isSome_iff_ne_none]
  rfl

/-- Settles O18: the pins are fields of `outputs`, and the codes are those of `Cause.code`. -/
theorem pinsMirrorFaultRecord : Obligations.PinsMirrorFaultRecord := fun s rst =>
  ⟨outputs_fault_iff rst s, rfl, rfl, rfl, fsrCode_eq_zero_iff, fsrCode_eq_code_iff (c := .illegalCommand),
    fsrCode_eq_code_iff (c := .privilegeFault), fsrCode_eq_code_iff (c := .uninitBank),
    fsrCode_eq_code_iff (c := .indexFault), fsrCode_eq_code_iff (c := .overflow), fsrCode_toNat_le_five s⟩

end Sys2Proof.Machine
end

section
/-! PROOFS. The commands that change no bank and the banks a command does not write (20_memory R54). -/

namespace Sys2Proof.Machine

/-- However its checks end, a command's end is a next state (00_scope R13, 60 R202). -/
theorem finish_next (s : State) (r : Except Cause State) : ∃ t, finish s r = .next t := by
  cases r with
  | ok t => exact ⟨t, rfl⟩
  | error c => exact ⟨faultEntry c s, rfl⟩

theorem exec_next (i : Instr) (s : State) : ∃ t, exec i s = .next t := by
  cases i with
  | zero rd => exact ⟨_, rfl⟩
  | _ => exact finish_next s _

/-- A command leaves every bank as it was but the one it writes. -/
theorem bank_of_exec {i : Instr} {s t : State} (h : exec i s = .next t) {b : BankId} (hb : i.bankWritten ≠ some b) :
    t.bank b = s.bank b := by
  cases commandEffect_of_exec h with
  | fault | answer => rfl
  | replaceBank rd a _ hrd => exact bank_writeBank_other s a fun hrdb => hb (hrdb ▸ hrd)
  | updateCoeff rd _ _ _ _ _ hrd => exact bank_writeBank_other s _ fun hrdb => hb (hrdb ▸ hrd)

/-- A command that reads only and completes changes nothing but the response. -/
theorem eq_withResp_of_readsOnly {i : Instr} {s t : State} (hop : i.op.readsOnly = true) (h : exec i s = .next t)
    (ht : t.fsr = none) : t = { s with resp := t.resp } := by
  simp only [Op.readsOnly, Bool.and_eq_true, Bool.not_eq_true'] at hop
  obtain ⟨hrestricted, hreplaces⟩ := hop
  cases commandEffect_of_exec h with
  | fault => cases ht
  | answer => rfl
  | replaceBank _ _ hop => simp [hop] at hreplaces
  | updateCoeff _ _ _ _ hop => simp [hop] at hrestricted

/-- The repetition runs from a state with the same banks, so it answers the same (10_state R32), and it too changes
nothing but the response. -/
theorem exec_again_of_readsOnly {i : Instr} {s t : State} (hop : i.op.readsOnly = true) (hs : s.fsr = none)
    (h : exec i s = .next t) (ht : t.fsr = none) : exec i t = .next t := by
  have hst := eq_withResp_of_readsOnly hop h ht
  obtain ⟨v, hv⟩ := exec_next i t
  obtain ⟨hresp, hfsr, -⟩ :=
    otherBanksDoNotMatter i s t t v (congrArg State.cmd hst).symm hs ht
      (fun b _ => (congrArg (State.bank · b) hst).symm) h hv
  have htv := eq_withResp_of_readsOnly hop hv (hfsr.symm.trans ht)
  rw [← hresp] at htv
  exact hv.trans (congrArg Host.Outcome.next htv)

/-- Settles O31, from the effects of a command and its independence of the banks it does not read. -/
theorem readsHaveNoSideEffect : Obligations.ReadsHaveNoSideEffect := by
  refine ⟨fun i s t hop hs h ht => ⟨eq_withResp_of_readsOnly hop h ht, exec_again_of_readsOnly hop hs h ht⟩, ?_⟩
  rintro rd ra rb s t (h | h) b hb
  all_goals exact bank_of_exec h (by simpa [Instr.bankWritten] using hb.symm)

end Sys2Proof.Machine
end

section
/-! PROOFS. What `GET` answers and where `SET` writes, so what `GET` answers after `SET`
(20_memory R56; 41 R132, R133). -/

namespace Sys2Proof.Machine

/-! `GET` past its bank check, at both outcomes of the index check (41 R132). -/

theorem exec_get_of_lt {s : State} {ra : BankId} {idx : Index} {a : RingElem} (ha : s.bank ra = some a)
    (hlt : idx.toNat < 256) : exec (.get ra idx) s = .next (s.respond (coeff a ⟨idx.toNat, hlt⟩)) := by
  simp only [exec, execGet, locate_ok ha hlt, Except.map, finish_ok]

theorem exec_get_of_ge {s : State} {ra : BankId} {idx : Index} {a : RingElem} (ha : s.bank ra = some a)
    (hge : 256 ≤ idx.toNat) : exec (.get ra idx) s = .next (faultEntry .indexFault s) := by
  simp only [exec, execGet, locate_index ha hge, Except.map, finish_error]

/-- An update of one coefficient that completes passed its three checks and wrote the new value there. -/
theorem of_updateCoeff_eq_ok {f : Word → Except Cause Word} {rd : BankId} {idx : Index} {s t : State}
    (h : updateCoeff f rd idx s = .ok t) :
    s.cmd.trusted = true ∧ ∃ (a : RingElem) (hlt : idx.toNat < 256) (z : Word), s.bank rd = some a ∧
      f (coeff a ⟨idx.toNat, hlt⟩) = .ok z ∧
      (s.writeBank rd (setCoeff a ⟨idx.toNat, hlt⟩ z)).respond 0 = t := by
  cases htrusted : s.cmd.trusted with
  | false => simp [updateCoeff_privilege htrusted] at h
  | true =>
    refine ⟨rfl, ?_⟩
    cases ha : s.bank rd with
    | none => simp [updateCoeff_uninit htrusted ha] at h
    | some a =>
      rcases lt_or_ge idx.toNat 256 with hlt | hge
      · rw [updateCoeff_of_checks htrusted ha hlt, except_map_eq_ok] at h
        obtain ⟨z, hz, ht⟩ := h
        exact ⟨a, hlt, z, rfl, hz, ht⟩
      · simp [updateCoeff_index htrusted ha hge] at h

/-- A `SET` that completes has stored `imm` at the coefficient it addresses (41 R133). -/
theorem of_exec_set {rd : BankId} {idx : Index} {imm : Word} {s t : State} (h : exec (.set rd idx imm) s = .next t)
    (ht : t.fsr = none) :
    ∃ (a : RingElem) (hlt : idx.toNat < 256), s.bank rd = some a ∧
      t = (s.writeBank rd (setCoeff a ⟨idx.toNat, hlt⟩ imm)).respond 0 := by
  obtain hok | ⟨c, -, rfl⟩ := finish_cases h
  · obtain ⟨-, a, hlt, z, ha, hz, rfl⟩ := of_updateCoeff_eq_ok hok
    cases hz
    exact ⟨a, hlt, ha, rfl⟩
  · cases ht

/-- `GET` of a coefficient on which two ring elements agree: that value from both, or `IndexFault` from both. -/
theorem get_congr_of_coeff {s t u v : State} {ra : BankId} {j : Index} {a b : RingElem} (hfsr : t.fsr = s.fsr)
    (ha : s.bank ra = some a) (hb : t.bank ra = some b)
    (hab : ∀ hlt : j.toNat < 256, coeff b ⟨j.toNat, hlt⟩ = coeff a ⟨j.toNat, hlt⟩)
    (hu : exec (.get ra j) s = .next u) (hv : exec (.get ra j) t = .next v) : v.resp = u.resp ∧ v.fsr = u.fsr := by
  rcases lt_or_ge j.toNat 256 with hlt | hge
  · rw [exec_get_of_lt ha hlt, ← hab hlt] at hu
    rw [exec_get_of_lt hb hlt] at hv
    cases hu
    cases hv
    exact ⟨rfl, hfsr⟩
  · rw [exec_get_of_ge ha hge] at hu
    rw [exec_get_of_ge hb hge] at hv
    cases hu
    cases hv
    exact ⟨rfl, rfl⟩

/-- Settles O48: in the bank written by its coefficients, in any other because `GET` sees only the bank it reads. -/
theorem readAfterWrite : Obligations.ReadAfterWrite := by
  intro rd idx imm s t hs hset ht
  obtain ⟨a, hlt, ha, hwritten⟩ := of_exec_set hset ht
  have hb : t.bank rd = some (setCoeff a ⟨idx.toNat, hlt⟩ imm) := by
    rw [hwritten, State.respond_bank, bank_writeBank_same]
  refine ⟨?_, fun ra j u v hne hu hv => ?_⟩
  · rw [exec_get_of_lt hb hlt, coeff_setCoeff_same]
    rfl
  · by_cases hra : rd = ra
    · subst hra
      have hidx : idx.toNat ≠ j.toNat := fun h => hne ⟨rfl, (BitVec.eq_of_toNat_eq h).symm⟩
      exact get_congr_of_coeff (ht.trans hs.symm) ha hb (fun hj => by simp [coeff_setCoeff, hidx]) hu hv
    · have hbank : t.bank ra = s.bank ra := bank_of_exec hset (by simpa [Instr.bankWritten] using hra)
      have hcmd : t.cmd = s.cmd := by rw [hwritten, State.respond_cmd, State.writeBank_cmd]
      obtain ⟨hresp, hfsr, -⟩ :=
        otherBanksDoNotMatter (.get ra j) t s v u hcmd ht hs (by simpa [Instr.banksRead] using hbank) hv hu
      exact ⟨hresp, hfsr⟩

end Sys2Proof.Machine
end

section
/-! PROOFS. ADD and SUB read both sources before they write, so the destination decides only where the result goes
(20_memory R61; 41 R134, R135). -/

namespace Sys2Proof.Machine

/-- The result of ADD and SUB, or the fault they raise, before a destination is written. -/
def combinedSources (f : Int → Int → Int) (ra rb : BankId) (s : State) : Except Cause RingElem := do
  let a ← readBank s ra
  let b ← readBank s rb
  lanes f a b

/-- ADD and SUB are their result, stored in the destination. -/
theorem combineBanks_eq_map (f : Int → Int → Int) (rd ra rb : BankId) (s : State) :
    combineBanks f rd ra rb s = (combinedSources f ra rb s).map fun c => (s.writeBank rd c).respond 0 := by
  simp only [combineBanks, combinedSources]
  cases readBank s ra with
  | error c => rfl
  | ok a =>
    cases readBank s rb with
    | error c => rfl
    | ok b => exact bind_pure_comp (m := Except Cause) _ (lanes f a b)

/-- ADD or SUB into two destinations: the same cause, or the same ring element in both. -/
theorem combineBanks_destination_irrelevant {f : Int → Int → Int} {s t u : State} {rd re ra rb : BankId}
    (ht : finish s (combineBanks f rd ra rb s) = .next t) (hu : finish s (combineBanks f re ra rb s) = .next u) :
    t.fsr = u.fsr ∧ (t.fsr = none → t.bank rd = u.bank re) := by
  rw [combineBanks_eq_map] at ht hu
  generalize combinedSources f ra rb s = r at ht hu
  cases r with
  | error c =>
    cases ht
    cases hu
    exact ⟨rfl, nofun⟩
  | ok c =>
    cases ht
    cases hu
    exact ⟨rfl, fun _ => by simp⟩

/-- Lanes that all pass have their exact results (41 R134, R135). -/
theorem dec32_coeff_of_lanes {f : Int → Int → Int} {a b c : RingElem} (h : lanes f a b = .ok c) (i : Fin 256) :
    dec32 (coeff c i) = f (dec32 (coeff a i)) (dec32 (coeff b i)) := by
  by_cases hall : ∀ i, InInt32 (f (dec32 (coeff a i)) (dec32 (coeff b i)))
  · rw [lanes_ok hall] at h
    cases h
    rw [coeff_ringOf, dec32_enc32 (hall i)]
  · simp [lanes_error (not_forall.mp hall)] at h

/-- ADD or SUB that completes: every lane of the destination is the exact result of the lanes of the sources. -/
theorem readCoeff_of_combineBanks {f : Int → Int → Int} {s t : State} {rd ra rb : BankId}
    (h : finish s (combineBanks f rd ra rb s) = .next t) (ht : t.fsr = none) {i : Fin 256} {x y : Word}
    (hx : s.readCoeff ra i = some x) (hy : s.readCoeff rb i = some y) :
    ∃ z, t.readCoeff rd i = some z ∧ dec32 z = f (dec32 x) (dec32 y) := by
  obtain ⟨a, ha, rfl⟩ := readCoeff_eq_some.mp hx
  obtain ⟨b, hb, rfl⟩ := readCoeff_eq_some.mp hy
  obtain hok | ⟨c, -, rfl⟩ := finish_cases h
  · rw [combineBanks_of_banks ha hb, except_map_eq_ok] at hok
    obtain ⟨c, hc, rfl⟩ := hok
    exact ⟨coeff c i, readCoeff_of_bank (bank_writeBank_same s rd c) i, dec32_coeff_of_lanes hc i⟩
  · cases ht

/-- A ring element minus itself overflows in no lane and is zero. -/
theorem lanes_sub_self (a : RingElem) : lanes (fun x y => x - y) a a = .ok zeroElem := by
  have hrange : ∀ i, InInt32 (dec32 (coeff a i) - dec32 (coeff a i)) := fun i => by simp [InInt32]
  rw [lanes_ok hrange]
  refine congrArg _ (ring_ext fun i => ?_)
  simp [enc32]

theorem exec_sub_self {s : State} {ra : BankId} (rd : BankId) (h : s.valid ra = true) :
    exec (.sub rd ra ra) s = .next ((s.writeBank rd zeroElem).respond 0) := by
  obtain ⟨a, ha⟩ := valid_iff.mp h
  simp only [exec, execSub, combineBanks_of_banks ha ha, lanes_sub_self, Except.map, finish_ok]

/-- Settles O49: the result is computed before the destination is written, lane by lane. -/
theorem destinationMayBeASource : Obligations.DestinationMayBeASource := by
  refine ⟨fun rd re ra rb s t u _ =>
    ⟨combineBanks_destination_irrelevant, combineBanks_destination_irrelevant⟩, ?_, fun rd ra s hra => ?_⟩
  · intro rd ra s t _ h ht i x hx
    obtain ⟨z, hz, hsum⟩ := readCoeff_of_combineBanks h ht hx hx
    exact ⟨z, hz, hsum.trans (two_mul _).symm⟩
  · exact ⟨_, exec_sub_self rd hra, ⟨rfl, rfl, rfl⟩, fun i => by simp [readCoeff_writeBank]⟩

end Sys2Proof.Machine
end


section
/-! PROOFS. The decoder against the encoder: which fields decode, to what, and that the fields of a command are the only ones
that decode to it (30_encoding R75 to R77). -/

namespace Sys2Proof

/-- The fields pass the four checks of 30_encoding R75 as those of opcode `o`. -/
structure LegalFields (f : C64) (o : Op) : Prop where
  op_eq : f.op = o.code
  z_eq : f.z = 0
  unused : unusedZero o.uses f = true
  wellFormed : (build f o).wellFormed = true

section
variable {f : C64} {o : Op} {i : Instr} {w : CmdWord}

theorem decodeC64_of_legalFields (h : LegalFields f o) : decodeC64 f = .ok (build f o) := by
  simp [decodeC64, h.op_eq, h.z_eq, h.unused, h.wellFormed]

theorem legalFields_of_decodeC64 (h : decodeC64 f = .ok i) : ∃ o, LegalFields f o ∧ build f o = i := by
  rw [decodeC64] at h
  cases ho : opOfCode f.op with
  | none => simp [ho] at h
  | some o =>
    rw [ho] at h
    dsimp only at h
    split_ifs at h with hz hu hwf
    cases h
    exact ⟨o, ⟨code_of_opOfCode ho, not_not.mp hz, eq_true_of_ne_false hu, eq_true_of_ne_false hwf⟩, rfl⟩

/-- A word decodes to a command exactly when its fields are legal and build that command. -/
theorem decode_eq_ok_iff : decode w = .ok i ↔ ∃ o, LegalFields (unpack w) o ∧ build (unpack w) o = i := by
  refine ⟨legalFields_of_decodeC64, ?_⟩
  rintro ⟨o, h, rfl⟩
  exact decodeC64_of_legalFields h

/-- RDC's selector is the one operand a command can have wrong (30_encoding R75 (d)). -/
theorem wellFormed_build_iff : (build f o).wellFormed = true ↔ (o = .rdc → f.idx.toNat ≤ 7) := by
  cases o <;> simp [build, Instr.wellFormed]

theorem legalWord_iff : Machine.LegalWord w ↔ ∃ o, LegalFields (unpack w) o := by
  simp only [Machine.LegalWord, ← wellFormed_build_iff]
  refine exists_congr fun o => ⟨?_, fun h => ⟨h.op_eq, h.z_eq, h.unused, h.wellFormed⟩⟩
  rintro ⟨hop, hz, hunused, hwf⟩
  exact ⟨hop, hz, hunused, hwf⟩

/-- A word decodes exactly when it passes the checks (a) to (d) of 30_encoding R75. -/
theorem exists_decode_iff_legalWord : (∃ i, decode w = .ok i) ↔ Machine.LegalWord w := by
  rw [legalWord_iff]
  constructor
  · rintro ⟨i, h⟩
    obtain ⟨o, hlegal, -⟩ := decode_eq_ok_iff.mp h
    exact ⟨o, hlegal⟩
  · rintro ⟨o, hlegal⟩
    exact ⟨build (unpack w) o, decode_eq_ok_iff.mpr ⟨o, hlegal, rfl⟩⟩

/-! The fields of a command and the command built from fields. -/

theorem build_fieldsOf (i : Instr) : build (fieldsOf i) i.op = i := by
  cases i <;> rfl

theorem unpack_encode (i : Instr) : unpack (encode i) = fieldsOf i := unpack_pack _

/-- Every command's word carries its opcode, and 0 in `z` and in each unused field. -/
theorem encodedFields (i : Instr) : Laws.EncodedFields.Statement i := by
  cases i with
  | barrett imm => exact Laws.EncodedFields.barrett imm
  | mont imm => exact Laws.EncodedFields.mont imm
  | tomont imm => exact Laws.EncodedFields.tomont imm
  | zero rd => exact Laws.EncodedFields.zero rd
  | get ra idx => exact Laws.EncodedFields.get ra idx
  | set rd idx imm => exact Laws.EncodedFields.set rd idx imm
  | add rd ra rb => exact Laws.EncodedFields.add rd ra rb
  | sub rd ra rb => exact Laws.EncodedFields.sub rd ra rb
  | seq ra => exact Laws.EncodedFields.seq ra
  | barrettI rd idx => exact Laws.EncodedFields.barrettI rd idx
  | montI rd idx => exact Laws.EncodedFields.montI rd idx
  | tomontI rd idx => exact Laws.EncodedFields.tomontI rd idx
  | rdc sel => exact Laws.EncodedFields.rdc sel

theorem build_unpack_encode (i : Instr) : build (unpack (encode i)) i.op = i := by
  rw [unpack_encode, build_fieldsOf]

theorem legalFields_encode (h : i.wellFormed = true) : LegalFields (unpack (encode i)) i.op := by
  obtain ⟨hop, hz, hunused⟩ := encodedFields i
  exact ⟨hop, hz, hunused, (build_unpack_encode i).symm ▸ h⟩

/-- A command built from fields keeps the used ones; its other fields are 0. -/
theorem fieldsOf_build (f : C64) (o : Op) : fieldsOf (build f o) =
    { imm := if o.uses.imm then f.imm else 0
      op := o.code
      rd := if o.uses.rd then f.rd else 0
      ra := if o.uses.ra then f.ra else 0
      rb := if o.uses.rb then f.rb else 0
      z := 0
      idx := if o.uses.idx then f.idx else 0 } := by
  cases o <;> rfl

theorem unusedZero_iff {u : Uses} {f : C64} : unusedZero u f = true ↔
    (u.imm || f.imm == 0) = true ∧ (u.rd || f.rd == 0) = true ∧ (u.ra || f.ra == 0) = true ∧
      (u.rb || f.rb == 0) = true ∧ (u.idx || f.idx == 0) = true := by
  simp only [unusedZero, Bool.and_eq_true, and_assoc]

theorem ite_used_eq_self {n : Nat} {x : BitVec n} {used : Bool} (h : (used || x == 0) = true) :
    (if used then x else 0) = x := by
  cases used with
  | true => rfl
  | false => exact (beq_iff_eq.mp h).symm

/-- Legal fields are those of the command they build: nothing is lost where a field that is not used is 0. -/
theorem fieldsOf_build_of_legalFields (h : LegalFields f o) : fieldsOf (build f o) = f := by
  obtain ⟨himm, hrd, hra, hrb, hidx⟩ := unusedZero_iff.mp h.unused
  rw [fieldsOf_build, ite_used_eq_self himm, ite_used_eq_self hrd, ite_used_eq_self hra, ite_used_eq_self hrb,
    ite_used_eq_self hidx, ← h.op_eq, ← h.z_eq]

theorem encode_build (h : LegalFields (unpack w) o) : encode (build (unpack w) o) = w := by
  rw [encode, fieldsOf_build_of_legalFields h, pack_unpack]

end

/-- Settles O1: the fields of a command's word are legal, and the command is built from them again. -/
theorem decodeOfEncode : Obligations.DecodeOfEncode := fun i h =>
  decode_eq_ok_iff.mpr ⟨i.op, legalFields_encode h, build_unpack_encode i⟩

/-- Settles O2: a word that decodes has legal fields, and legal fields are those of the command they build. -/
theorem legalWordsHaveOneEncoding : Obligations.LegalWordsHaveOneEncoding := by
  refine fun w => ⟨fun i h => ?_, exists_decode_iff_legalWord⟩
  obtain ⟨o, hlegal, rfl⟩ := decode_eq_ok_iff.mp h
  exact ⟨hlegal.wellFormed, encode_build hlegal⟩

/-! Reserved opcodes (30_encoding R76). -/

/-- The ranges of 30_encoding R76. -/
abbrev ReservedOpcode (n : Nat) : Prop :=
  n = 0 ∨ (0x04 ≤ n ∧ n ≤ 0x0F) ∨ (0x16 ≤ n ∧ n ≤ 0x20) ∨ (0x24 ≤ n ∧ n ≤ 0x2F) ∨ 0x31 ≤ n

theorem not_reservedOpcode_code (o : Op) : ¬ ReservedOpcode o.code.toNat := by
  cases o <;> decide

theorem opOfCode_of_reservedOpcode {c : BitVec 8} (h : ReservedOpcode c.toNat) : opOfCode c = none := by
  cases hc : opOfCode c with
  | none => rfl
  | some o => exact absurd (code_of_opOfCode hc ▸ h) (not_reservedOpcode_code o)

/-- Settles O4: no command has a reserved opcode, and the opcode is the decoder's first check. -/
theorem reservedOpcodesRejected : Obligations.ReservedOpcodesRejected := by
  rintro w _ rfl h
  simp only [decode, decodeC64, opOfCode_of_reservedOpcode h]

/-- Settles O5, by decoding each of the 21 words. -/
theorem specWordsDecode : Obligations.SpecWordsDecode := by
  unfold Obligations.SpecWordsDecode
  decide

end Sys2Proof
end

section
/-! PROOFS. The mask table of 30_encoding R75 says the four checks: a word matches the row of a command exactly when its
fields are legal for it, so the pseudocode of R77 over the table is the decoder. -/

namespace Sys2Proof

/-- The mask of a field: all ones when its value is fixed, and no bit when the command uses it. -/
def fieldMask {n : Nat} (used : Bool) : BitVec n := if used then 0 else BitVec.allOnes n

/-- The mask of a command, field by field: `op`, `z` and the unused fields, and all of RDC's selector but its three low
bits. -/
def maskFields (o : Op) : C64 where
  imm := fieldMask o.uses.imm
  op := BitVec.allOnes 8
  rd := fieldMask o.uses.rd
  ra := fieldMask o.uses.ra
  rb := fieldMask o.uses.rb
  z := BitVec.allOnes 2
  idx := if o = .rdc then 0xFFF8 else fieldMask o.uses.idx

/-- The match of a command, field by field: its opcode, and 0. -/
def matchFields (o : Op) : C64 := { imm := 0, op := o.code, rd := 0, ra := 0, rb := 0, z := 0, idx := 0 }

/-- The row of a command, from its fields. -/
def maskRow (o : Op) : Op × CmdWord × CmdWord := (o, pack (matchFields o), pack (maskFields o))

/-- The table's thirteen rows are those of their commands. -/
theorem eq_maskRow_of_mem : ∀ row ∈ maskRows, row = maskRow row.1 := by
  decide

/-- Each command has one row in the table. -/
theorem filter_maskRows_op (o : Op) : maskRows.filter (fun row => row.1 = o) = [maskRow o] := by
  cases o <;> decide

/-! A row matches a word field by field. -/

theorem unpack_injective : Function.Injective unpack := Function.LeftInverse.injective pack_unpack

theorem unpack_and (w m : CmdWord) : unpack (w &&& m) =
    { imm := (unpack w).imm &&& (unpack m).imm
      op := (unpack w).op &&& (unpack m).op
      rd := (unpack w).rd &&& (unpack m).rd
      ra := (unpack w).ra &&& (unpack m).ra
      rb := (unpack w).rb &&& (unpack m).rb
      z := (unpack w).z &&& (unpack m).z
      idx := (unpack w).idx &&& (unpack m).idx } := by
  simp only [unpack, BitVec.extractLsb'_and]

theorem and_fieldMask_eq_zero_iff {n : Nat} (x : BitVec n) (used : Bool) :
    x &&& fieldMask used = 0 ↔ (used || x == 0) = true := by
  cases used <;> simp [fieldMask]

/-- The selector mask leaves out the three low bits, so nothing is left exactly when the selector is at most 7. -/
theorem and_selectorMask_eq_zero_iff (sel : Index) : sel &&& 0xFFF8 = 0 ↔ sel.toNat ≤ 7 := by
  have hmask : (0xFFF8 : Index) = BitVec.allOnes 16 <<< 3 := by decide
  rw [hmask, ← BitVec.shiftLeft_ushiftRight, ← BitVec.toNat_inj]
  simp only [BitVec.toNat_shiftLeft, BitVec.toNat_ushiftRight, Nat.shiftLeft_eq, Nat.shiftRight_eq_div_pow,
    BitVec.ofNat_eq_ofNat, BitVec.toNat_ofNat]
  have hlt := sel.isLt
  omega

/-- The `idx` field passes its mask when it is 0 or used, and for RDC at most 7. -/
theorem and_idxMask_eq_zero_iff (f : C64) (o : Op) :
    f.idx &&& (maskFields o).idx = 0 ↔ (o.uses.idx || f.idx == 0) = true ∧ (build f o).wellFormed = true := by
  rw [wellFormed_build_iff]
  by_cases ho : o = .rdc
  · subst ho
    simpa [maskFields, Op.uses] using and_selectorMask_eq_zero_iff f.idx
  · simpa [maskFields, ho] using and_fieldMask_eq_zero_iff f.idx o.uses.idx

theorem rowMatches_maskRow (w : CmdWord) (o : Op) : rowMatches w (maskRow o) = true ↔ LegalFields (unpack w) o := by
  rw [rowMatches, beq_iff_eq, ← unpack_injective.eq_iff, unpack_and, maskRow, unpack_pack, unpack_pack]
  generalize unpack w = f
  simp only [matchFields, C64.mk.injEq, and_idxMask_eq_zero_iff]
  simp only [maskFields, and_fieldMask_eq_zero_iff, BitVec.and_allOnes]
  constructor
  · rintro ⟨himm, hop, hrd, hra, hrb, hz, hidx, hwf⟩
    exact ⟨hop, hz, unusedZero_iff.mpr ⟨himm, hrd, hra, hrb, hidx⟩, hwf⟩
  · rintro ⟨hop, hz, hunused, hwf⟩
    obtain ⟨himm, hrd, hra, hrb, hidx⟩ := unusedZero_iff.mp hunused
    exact ⟨himm, hop, hrd, hra, hrb, hz, hidx, hwf⟩

theorem rowMatches_of_mem {row : Op × CmdWord × CmdWord} (h : row ∈ maskRows) (w : CmdWord) :
    rowMatches w row = true ↔ LegalFields (unpack w) row.1 := by
  rw [eq_maskRow_of_mem row h]
  exact rowMatches_maskRow w row.1

/-! Which rows match a word, and so what the table's decoder answers. -/

/-- The opcodes are distinct, so fields are legal for one command only. -/
theorem LegalFields.op_unique {f : C64} {o o' : Op} (h : LegalFields f o) (h' : LegalFields f o') : o' = o := by
  have hcode : o'.code = o.code := h'.op_eq.symm.trans h.op_eq
  simpa using congrArg opOfCode hcode

theorem filter_rowMatches_of_legalFields {w : CmdWord} {o : Op} (h : LegalFields (unpack w) o) :
    maskRows.filter (rowMatches w) = [maskRow o] := by
  rw [← filter_maskRows_op o]
  refine List.filter_congr fun row hrow => Bool.eq_iff_iff.mpr ?_
  rw [rowMatches_of_mem hrow, decide_eq_true_iff]
  exact ⟨h.op_unique, fun ho => ho ▸ h⟩

theorem filter_rowMatches_of_not_legalFields {w : CmdWord} (h : ∀ o, ¬ LegalFields (unpack w) o) :
    maskRows.filter (rowMatches w) = [] :=
  List.filter_eq_nil_iff.mpr fun row hrow hmatch => h row.1 ((rowMatches_of_mem hrow w).mp hmatch)

/-- The pseudocode's first matching row is the first of all that match. -/
theorem maskDecode_eq_head? (w : CmdWord) :
    maskDecode w = (maskRows.filter (rowMatches w)).head?.map fun row => build (unpack w) row.1 := by
  rw [maskDecode, List.head?_filter]

/-- Settles O3: a word that decodes matches the row of its command alone, and any other word matches none. -/
theorem decodeIsMaskTable : Obligations.DecodeIsMaskTable := by
  intro w
  rw [maskDecode_eq_head?]
  cases hd : decode w with
  | ok i =>
    obtain ⟨o, hlegal, rfl⟩ := decode_eq_ok_iff.mp hd
    rw [filter_rowMatches_of_legalFields hlegal]
    exact ⟨rfl, le_rfl⟩
  | error e =>
    have hillegal : ∀ o, ¬ LegalFields (unpack w) o := fun o hlegal => by
      simp [decode_eq_ok_iff.mpr ⟨o, hlegal, rfl⟩] at hd
    rw [filter_rowMatches_of_not_legalFields hillegal]
    exact ⟨rfl, zero_le_one⟩

end Sys2Proof
end

section
/-! PROOFS. The reducers at the reference parameters (40_field_reduction): where each answers and what, the residue class
and the range of the answer, and the three scalar commands that respond with it. -/

namespace Sys2Proof.Machine

theorem params_ok : Config.params.Ok := by decide

/-! Where the reducers raise `Overflow` (40 R101, R104, R107): at a check whose number leaves int32. -/

theorem chk32_bind_error {α : Type} {x : Int} (f : Int → Except Cause α) (h : ¬ InInt32 x) :
    (chk32 x >>= f) = .error .overflow := by
  rw [chk32_error h]
  rfl

theorem barrett_error_of_not_inInt32 {P : Params} {v : Int}
    (h : ¬ (InInt32 (v * P.barrettMult) ∧ InInt32 (v * P.barrettMult + asr P.barrettR 1))) :
    barrett P v = .error .overflow := by
  by_cases hproduct : InInt32 (v * P.barrettMult)
  · rw [barrett, chk32_ok hproduct]
    exact chk32_bind_error _ fun hsum => h ⟨hproduct, hsum⟩
  · exact chk32_bind_error _ hproduct

theorem mont_error_of_not_inInt32 {P : Params} {v : Int} (h : ¬ InInt32 (v - montT P v * P.q)) :
    mont P v = .error .overflow :=
  chk32_bind_error _ h

theorem tomont_error_of_not_inInt32 {P : Params} {v : Int} (h : ¬ InInt32 (P.montR2 * v)) :
    tomont P v = .error .overflow :=
  chk32_bind_error _ h

theorem tomont_of_inInt32 {P : Params} {v : Int} (h : InInt32 (P.montR2 * v)) :
    tomont P v = mont P (P.montR2 * v) := by
  rw [tomont, chk32_ok h]
  rfl

/-! BARRETT (40 R101 to R103). -/

section
variable {v r : Int}

theorem not_barrettOverflows_iff : ¬ barrettOverflows v ↔ -106527 ≤ v ∧ v ≤ 104862 := by
  rw [barrettOverflows, not_or, not_lt, not_lt]

/-- Both checks of BARRETT together leave exactly the legal range (40 R103). -/
theorem inInt32_barrett_iff :
    InInt32 (v * 20159) ∧ InInt32 (v * 20159 + 33554432) ↔ ¬ barrettOverflows v := by
  rw [not_barrettOverflows_iff]
  omega

theorem barrett_of_not_overflows (h : ¬ barrettOverflows v) : barrett Config.params v = .ok (barrettValue v) := by
  obtain ⟨hproduct, hsum⟩ := inInt32_barrett_iff.mpr h
  exact barrett_eq_ok_iff.mpr ⟨hproduct, hsum, rfl⟩

theorem barrett_of_overflows (h : barrettOverflows v) : barrett Config.params v = .error .overflow :=
  barrett_error_of_not_inInt32 fun hchecks => inInt32_barrett_iff.mp hchecks h

theorem barrett_params_eq_ok_iff :
    barrett Config.params v = .ok r ↔ ¬ barrettOverflows v ∧ barrettValue v = r := by
  by_cases h : barrettOverflows v
  · simp [barrett_of_overflows h, h]
  · simp [barrett_of_not_overflows h, h]

/-- The sharp bound of 40 R102 (b): `20159 * 3329` is `2^26 + 447`, and over the legal range that excess adds less than 1
to the 1664.5 of the rounding. -/
theorem barrettValue_bounds (h : ¬ barrettOverflows v) : -1665 ≤ barrettValue v ∧ barrettValue v ≤ 1665 := by
  rw [not_barrettOverflows_iff] at h
  unfold barrettValue
  omega

/-- On [-1664, 1664] the rounded quotient is 0 (40 R102 (e)). -/
theorem barrettValue_eq_self (hlo : -1664 ≤ v) (hhi : v ≤ 1664) : barrettValue v = v := by
  have hquotient : (v * 20159 + 33554432) / 67108864 = 0 := by omega
  rw [barrettValue, hquotient, zero_mul, sub_zero]

theorem barrett_eq_self (hlo : -1664 ≤ v) (hhi : v ≤ 1664) : barrett Config.params v = .ok v :=
  barrett_params_eq_ok_iff.mpr ⟨not_barrettOverflows_iff.mpr (by omega), barrettValue_eq_self hlo hhi⟩

theorem barrett_emod (h : barrett Config.params v = .ok r) : (r - v) % 3329 = 0 :=
  Int.emod_eq_zero_of_dvd (q_dvd_barrett_sub h)

/-! MONT (40 R104 to R106). -/

theorem montT_params (v : Int) : montT Config.params v = v * 62209 % 65536 := rfl

/-- The Montgomery difference only decreases the operand, so it can leave int32 only downward (40 R106). -/
theorem inInt32_mont_iff (hv : v ≤ 2147483647) :
    InInt32 (v - montT Config.params v * 3329) ↔ ¬ montOverflows v := by
  rw [montT_params, montOverflows]
  omega

theorem mont_of_not_overflows (hv : v ≤ 2147483647) (h : ¬ montOverflows v) :
    mont Config.params v = .ok (montValue v) :=
  mont_eq_ok_iff.mpr ⟨(inInt32_mont_iff hv).mpr h, rfl⟩

theorem mont_of_overflows (hv : v ≤ 2147483647) (h : montOverflows v) :
    mont Config.params v = .error .overflow :=
  mont_error_of_not_inInt32 fun hcheck => (inInt32_mont_iff hv).mp hcheck h

/-- The Montgomery difference is a multiple of the radix (40 R105 (a)). -/
theorem montDifference_emod (v : Int) : (v - v * 62209 % 65536 * 3329) % 65536 = 0 :=
  Int.emod_eq_zero_of_dvd (montR_dvd_sub_montT_mul_q params_ok v)

/-- `montValue` is the `r` of `r * 65536 = v - t * 3329`, with `t` a residue of the radix (40 R105 (b)). -/
theorem montValue_mul_radix (v : Int) :
    ∃ t, 0 ≤ t ∧ t ≤ 65535 ∧ montValue v * 65536 = v - t * 3329 := by
  have hmultiple := montDifference_emod v
  refine ⟨v * 62209 % 65536, by omega, by omega, ?_⟩
  unfold montValue
  omega

/-- MONT overflows exactly when its shifted result would be below -32768. -/
theorem montOverflows_iff (v : Int) : montOverflows v ↔ montValue v < -32768 := by
  have hmultiple := montDifference_emod v
  unfold montOverflows montValue
  omega

theorem not_montOverflows_of_le (h : -1929383168 ≤ v) : ¬ montOverflows v := by
  obtain ⟨t, ht0, ht1, hr⟩ := montValue_mul_radix v
  rw [montOverflows_iff]
  omega

/-- The greatest faulting operand, and the least two operands of int32 (40 R106). -/
theorem montOverflows_boundary :
    montOverflows (-1929383169) ∧ ¬ montOverflows (-2147483648) ∧ montOverflows (-2147483647) := by
  unfold montOverflows
  decide

theorem montValue_inInt32 (hv : InInt32 v) (h : ¬ montOverflows v) : InInt32 (montValue v) := by
  obtain ⟨t, ht0, -, hr⟩ := montValue_mul_radix v
  rw [montOverflows_iff] at h
  omega

/-! TOMONT (40 R107, R108). -/

theorem inInt32_tomont_iff : InInt32 (1353 * v) ↔ -1587201 ≤ v ∧ v ≤ 1587201 := by omega

theorem not_tomontOverflows_iff : ¬ tomontOverflows v ↔ InInt32 (1353 * v) ∧ ¬ montOverflows (1353 * v) := by
  rw [inInt32_tomont_iff, tomontOverflows, ← or_assoc, not_or]
  exact and_congr_left' (by omega)

theorem tomont_of_not_overflows (h : ¬ tomontOverflows v) :
    tomont Config.params v = .ok (montValue (1353 * v)) := by
  obtain ⟨hproduct, hmont⟩ := not_tomontOverflows_iff.mp h
  rw [tomont_of_inInt32 hproduct]
  exact mont_of_not_overflows hproduct.2 hmont

theorem tomont_of_overflows (h : tomontOverflows v) : tomont Config.params v = .error .overflow := by
  by_cases hproduct : InInt32 (1353 * v)
  · have hmont : montOverflows (1353 * v) := by
      by_contra hmont
      exact not_tomontOverflows_iff.mpr ⟨hproduct, hmont⟩ h
    rw [tomont_of_inInt32 hproduct]
    exact mont_of_overflows hproduct.2 hmont
  · exact tomont_error_of_not_inInt32 hproduct

theorem tomont_emod (h : tomont Config.params v = .ok r) : (r - v * 65536) % 3329 = 0 :=
  Int.emod_eq_zero_of_dvd (q_dvd_tomont_sub params_ok h)

theorem not_tomontOverflows_of_le (hlo : -1425955 ≤ v) (hhi : v ≤ 1587201) : ¬ tomontOverflows v :=
  not_tomontOverflows_iff.mpr ⟨inInt32_tomont_iff.mpr ⟨by omega, hhi⟩, not_montOverflows_of_le (by omega)⟩

/-- The shifted result fixes the residue class of TOMONT's operand, because 1353 is 65536 squared and 169 inverts 65536
modulo 3329. -/
theorem emod_eq_montValue_mul_emod (v : Int) : v % 3329 = montValue (1353 * v) * 169 % 3329 := by
  obtain ⟨t, -, -, hr⟩ := montValue_mul_radix (1353 * v)
  omega

/-- For each of the fourteen results below -32768 within reach of an operand above -1426646, the operand of its class in
the window from -1428141 = -429 * 3329 on is too low, or needs `65535 < t`. -/
theorem overflowing_results_out_of_reach : ∀ r ∈ Finset.Ico (-32782 : Int) (-32768),
    r * 169 % 3329 - 1428141 ≤ -1426646 ∨ r * 65536 + 65535 * 3329 < 1353 * (r * 169 % 3329 - 1428141) := by
  decide

/-- No negative operand above -1426646 overflows (40 R108). -/
theorem not_tomontOverflows_of_neg (hlo : -1426646 < v) (hneg : v < 0) : ¬ tomontOverflows v := by
  rw [not_tomontOverflows_iff, montOverflows_iff]
  refine ⟨inInt32_tomont_iff.mpr ⟨by omega, by omega⟩, fun hlow => ?_⟩
  obtain ⟨t, ht0, ht1, hr⟩ := montValue_mul_radix (1353 * v)
  have hclass := emod_eq_montValue_mul_emod v
  have hout := overflowing_results_out_of_reach (montValue (1353 * v)) (Finset.mem_Ico.mpr ⟨by omega, hlow⟩)
  have hv : v = montValue (1353 * v) * 169 % 3329 - 1428141 := by omega
  omega

/-- A result above 59 needs `t < 0` for the canonical operand of its class. -/
theorem results_above_59_out_of_reach : ∀ r ∈ Finset.Ioc (59 : Int) 68, 1353 * (r * 169 % 3329) < r * 65536 := by
  decide

/-- A result below -3309 needs `65535 < t` for the canonical operand of its class. -/
theorem results_below_3309_out_of_reach : ∀ r ∈ Finset.Ico (-3328 : Int) (-3309),
    r * 65536 + 65535 * 3329 < 1353 * (r * 169 % 3329) := by
  decide

/-- The range on canonical operands (40 R108): the bounds of `t` alone leave [-3328, 68]. -/
theorem montValue_canonical_bounds (h0 : 0 ≤ v) (hq : v < 3329) :
    -3309 ≤ montValue (1353 * v) ∧ montValue (1353 * v) ≤ 59 := by
  obtain ⟨t, ht0, ht1, hr⟩ := montValue_mul_radix (1353 * v)
  have hclass : v = montValue (1353 * v) * 169 % 3329 :=
    (Int.emod_eq_of_lt h0 hq).symm.trans (emod_eq_montValue_mul_emod v)
  constructor
  · by_contra! hlow
    have := results_below_3309_out_of_reach _ (Finset.mem_Ico.mpr ⟨by omega, hlow⟩)
    omega
  · by_contra! hhigh
    have := results_above_59_out_of_reach _ (Finset.mem_Ioc.mpr ⟨hhigh, by omega⟩)
    omega

/-- The round trip through TOMONT and MONT (40 R108): the result is the operand modulo 3329, in [-3328, 0]. -/
theorem mont_tomont_canonical (h0 : 0 ≤ v) (hq : v < 3329) :
    ∃ r, tomont Config.params v = .ok r ∧ -3309 ≤ r ∧ r ≤ 59 ∧
      mont Config.params r = .ok (if v = 0 then 0 else v - 3329) := by
  have htomont := tomont_of_not_overflows (not_tomontOverflows_of_le (v := v) (by omega) (by omega))
  obtain ⟨hlo, hhi⟩ := montValue_canonical_bounds h0 hq
  have hclass := tomont_emod htomont
  generalize montValue (1353 * v) = r at *
  obtain ⟨t, ht0, ht1, hr⟩ := montValue_mul_radix r
  have hback : montValue r = if v = 0 then 0 else v - 3329 := by
    split <;> omega
  exact ⟨r, htomont, hlo, hhi, hback ▸ mont_of_not_overflows (by omega) (not_montOverflows_of_le (by omega))⟩

end

/-! The scalar commands (40 R100). -/

/-- A scalar command whose reduction answers an int32 `value` outside `overflows` and raises `Overflow` on it: one beat
with that value and nothing else changed, or fault entry. -/
theorem scalarCommand {f : Int → Except Cause Int} {overflows : Int → Prop} {value : Int → Int}
    (hok : ∀ v, InInt32 v → ¬ overflows v → f v = .ok (value v) ∧ InInt32 (value v))
    (herror : ∀ v, InInt32 v → overflows v → f v = .error .overflow) (imm : Word) (s : State) :
    (¬ overflows (dec32 imm) → ∃ z,
      finish s (respondReduced f imm s) = .next { s with resp := [{ data := z, last := true, err := false }] } ∧
        dec32 z = value (dec32 imm)) ∧
    (overflows (dec32 imm) → finish s (respondReduced f imm s) = .next (faultEntry .overflow s)) := by
  constructor
  · intro h
    obtain ⟨hanswer, hvalue⟩ := hok _ (dec32_inInt32 imm) h
    rw [respondReduced_ok s hanswer]
    exact ⟨_, rfl, dec32_enc32 hvalue⟩
  · intro h
    rw [respondReduced_error s (herror _ (dec32_inInt32 imm) h), finish_error]

/-! The obligations. -/

/-- Settles O32: the two checks pass exactly on the legal range. -/
theorem barrettLegalRange : Obligations.BarrettLegalRange :=
  fun _ => ⟨barrett_of_not_overflows, barrett_of_overflows⟩

/-- Settles O33: from the bound over the legal range, and the rounded quotient 0 near 0. -/
theorem barrettGuarantees : Obligations.BarrettGuarantees := by
  refine ⟨fun v r h => ?_, rfl, rfl, rfl, rfl⟩
  obtain ⟨hrange, rfl⟩ := barrett_params_eq_ok_iff.mp h
  obtain ⟨hlo, hhi⟩ := barrettValue_bounds hrange
  refine ⟨barrett_emod h, hlo, hhi, ?_, ?_, barrettValue_eq_self, fun hmax hmin => barrett_eq_self ?_ ?_⟩
  · rw [not_barrettOverflows_iff] at hrange
    omega
  all_goals omega

/-- Settles O34: a difference that is a multiple of the radix and at most the operand; the boundary operands by
evaluation. -/
theorem montLegalOperands : Obligations.MontLegalOperands := by
  intro v hv
  refine ⟨mont_of_not_overflows hv.2, mont_of_overflows hv.2, not_montOverflows_of_le, ?_⟩
  obtain ⟨hgreatest, hleast, hnext⟩ := montOverflows_boundary
  exact ⟨fun h => h ▸ hgreatest, fun h => h ▸ hleast, fun h => h ▸ hnext⟩

/-- Settles O35: everything follows from `r * 65536 = v - t * 3329` and the range of `t`; 169 inverts 65536. -/
theorem montGuarantees : Obligations.MontGuarantees := by
  intro v r hv h
  have hexact : r * 65536 = v - montT Config.params v * 3329 := mont_mul_montR params_ok h
  have hcheck : InInt32 (v - montT Config.params v * 3329) := (mont_eq_ok_iff.mp h).1
  rw [montT_params] at *
  omega

/-- Settles O36: the product check and MONT's, the residue class of the result, the round trip on canonical operands; the
boundary operand and the two extremes, at 51 and 3313, by evaluation. -/
theorem tomontGuarantees : Obligations.TomontGuarantees := by
  refine ⟨fun v => ⟨tomont_of_not_overflows, tomont_of_overflows, not_tomontOverflows_of_le, ?_,
      not_tomontOverflows_of_neg, fun r => tomont_emod⟩,
    fun a h0 hq => ⟨by omega, mont_tomont_canonical h0 hq⟩, ?_, ?_⟩
  · rintro rfl
    unfold tomontOverflows montOverflows
    decide
  · exact ⟨51, by decide, by decide, rfl⟩
  · exact ⟨3313, by decide, by decide, rfl⟩

/-- Settles O37: BARRETT by its legal range and bounds, MONT of TOMONT by the round trip, the stated values by evaluation. -/
theorem sourcePropertiesOfReducers : Obligations.SourcePropertiesOfReducers := by
  refine ⟨fun v hlo hhi => ?_, fun a h0 hq => ?_, rfl, rfl, rfl, rfl⟩
  · have hrange : ¬ barrettOverflows v := not_barrettOverflows_iff.mpr ⟨hlo, hhi⟩
    have hr := barrett_of_not_overflows hrange
    exact ⟨_, hr, barrett_emod hr, barrettValue_bounds hrange⟩
  · obtain ⟨m, htomont, -, -, hmont⟩ := mont_tomont_canonical h0 hq
    refine ⟨m, _, htomont, hmont, ?_⟩
    split <;> omega

/-- Settles O39: BARRETT as a scalar command, its answer within 1665. -/
theorem barrettCommand : Obligations.BarrettCommand :=
  scalarCommand
    (fun _ _ h => ⟨barrett_of_not_overflows h, by have := barrettValue_bounds h; omega⟩)
    (fun _ _ => barrett_of_overflows)

/-- Settles O40: MONT as a scalar command. -/
theorem montCommand : Obligations.MontCommand :=
  scalarCommand (fun _ hv h => ⟨mont_of_not_overflows hv.2 h, montValue_inInt32 hv h⟩)
    (fun _ hv => mont_of_overflows hv.2)

/-- Settles O41: TOMONT as a scalar command, its answer that of MONT on the product. -/
theorem tomontCommand : Obligations.TomontCommand :=
  scalarCommand (value := fun v => montValue (1353 * v))
    (fun _ _ h => by
      obtain ⟨hproduct, hmont⟩ := not_tomontOverflows_iff.mp h
      exact ⟨tomont_of_not_overflows h, montValue_inInt32 hproduct hmont⟩)
    (fun _ _ => tomont_of_overflows)

end Sys2Proof.Machine
end

section
/-! PROOFS. The commands on one coefficient of a bank: what `GET` answers, and the one coefficient `SET` writes
(41_ring_element R132, R133). -/

namespace Sys2Proof.Machine

/-- `GET` fails its bank check before it looks at the index (41 R132). -/
theorem exec_get_uninit {s : State} {ra : BankId} (idx : Index) (h : s.bank ra = none) :
    exec (.get ra idx) s = .next (faultEntry .uninitBank s) := by
  simp only [exec, execGet, locate_uninit h, Except.map, finish_error]

/-- Settles O43: past its bank check `GET` answers the coefficient at an index below 256 and faults at any other. -/
theorem getCommand : Obligations.GetCommand := by
  refine fun ra idx s => ⟨fun i x hi hx => ?_, fun hra => exec_get_uninit idx (not_valid_iff.mp hra), fun hra hidx => ?_⟩
  · obtain ⟨a, ha, rfl⟩ := readCoeff_eq_some.mp hx
    have hlt : idx.toNat < 256 := hi ▸ i.isLt
    obtain rfl : i = ⟨idx.toNat, hlt⟩ := Fin.ext hi
    exact exec_get_of_lt ha hlt
  · obtain ⟨a, ha⟩ := valid_iff.mp hra
    exact exec_get_of_ge ha hidx

/-- Storing a bank with coefficient `i` replaced, and the response 0, is writing that one coefficient (10_state R36). -/
theorem wroteOneCoeff_setCoeff {s : State} {rd : BankId} {a : RingElem} (ha : s.bank rd = some a) (i : Fin 256)
    (z : Word) : WroteOneCoeff rd i z s ((s.writeBank rd (setCoeff a i z)).respond 0) := by
  refine ⟨?_, fun b j hne => ?_, ⟨rfl, rfl, rfl⟩, ⟨rfl, rfl⟩, rfl⟩
  · rw [State.respond_readCoeff, readCoeff_writeBank, if_pos rfl, coeff_setCoeff_same]
  · rw [State.respond_readCoeff]
    by_cases hb : b = rd
    · subst hb
      exact readCoeff_writeBank_setCoeff ha z fun hij => hne ⟨rfl, hij.symm⟩
    · exact readCoeff_writeBank_other s _ (Ne.symm hb) j

/-- Settles O44: one clause per outcome of the checks of the restricted update. -/
theorem setCommand : Obligations.SetCommand := by
  intro rd idx imm s
  refine ⟨fun i hi htrusted hrd => ?_, fun htrusted => ?_, fun htrusted hrd => ?_, fun htrusted hrd hidx => ?_⟩
  · obtain ⟨a, ha⟩ := valid_iff.mp hrd
    have hlt : idx.toNat < 256 := hi ▸ i.isLt
    obtain rfl : i = ⟨idx.toNat, hlt⟩ := Fin.ext hi
    refine ⟨_, ?_, wroteOneCoeff_setCoeff ha _ imm⟩
    simp only [exec, execSet, updateCoeff_of_checks htrusted ha hlt, Except.map, finish_ok]
  · simp only [exec, execSet, updateCoeff_privilege htrusted, finish_error]
  · simp only [exec, execSet, updateCoeff_uninit htrusted (not_valid_iff.mp hrd), finish_error]
  · obtain ⟨a, ha⟩ := valid_iff.mp hrd
    simp only [exec, execSet, updateCoeff_index htrusted ha hidx, finish_error]

end Sys2Proof.Machine
end

section
/-! PROOFS. The commands that replace a whole bank: ZERO, ADD and SUB (41_ring_element R131, R134, R135). -/

namespace Sys2Proof.Machine

/-- A bank that was just written is valid (10_state R23). -/
theorem valid_writeBank_same (s : State) (rd : BankId) (a : RingElem) : (s.writeBank rd a).valid rd = true :=
  valid_iff.mpr ⟨a, bank_writeBank_same s rd a⟩

/-- Writing one bank and answering one beat keeps everything else. -/
theorem frameBut_writeBank_respond (s : State) (rd : BankId) (a : RingElem) (v : Word) :
    FrameBut rd s ((s.writeBank rd a).respond v) :=
  ⟨fun _ hb => readCoeff_writeBank_other s a (Ne.symm hb), ⟨rfl, rfl, rfl⟩, ⟨rfl, rfl⟩⟩

/-- Settles O42: `ZERO` has no check, and its one write is the zero ring element. -/
theorem zeroCommand : Obligations.ZeroCommand := by
  refine fun rd s => ⟨(s.writeBank rd zeroElem).respond 0, rfl, fun i => ?_, valid_writeBank_same s rd zeroElem, rfl,
    frameBut_writeBank_respond s rd zeroElem 0⟩
  rw [State.respond_readCoeff, readCoeff_writeBank, if_pos rfl, coeff_zeroElem]

section
variable {f : Int → Int → Int} {s t : State} {rd ra rb : BankId} {a b c : RingElem}

/-- ADD and SUB complete when both sources hold a ring element and the lanes pass. -/
theorem finish_combineBanks_of_lanes (ha : s.bank ra = some a) (hb : s.bank rb = some b) (hc : lanes f a b = .ok c) :
    finish s (combineBanks f rd ra rb s) = .next ((s.writeBank rd c).respond 0) := by
  rw [combineBanks_of_banks ha hb, hc]
  rfl

theorem laneOverflows_iff (ha : s.bank ra = some a) (hb : s.bank rb = some b) :
    laneOverflows f s ra rb ↔ ∃ i, ¬ InInt32 (f (dec32 (coeff a i)) (dec32 (coeff b i))) := by
  simp [laneOverflows, readCoeff_of_bank ha, readCoeff_of_bank hb]

/-- The lanes pass when none of them overflows. -/
theorem lanes_ok_of_not_laneOverflows (ha : s.bank ra = some a) (hb : s.bank rb = some b)
    (h : ¬ laneOverflows f s ra rb) : ∃ c, lanes f a b = .ok c := by
  rw [laneOverflows_iff ha hb, not_exists] at h
  exact ⟨_, lanes_ok fun i => not_not.mp (h i)⟩

/-- One overflowing lane is `Overflow` of the whole command (60 R202). -/
theorem finish_combineBanks_of_laneOverflows (h : laneOverflows f s ra rb) :
    finish s (combineBanks f rd ra rb s) = .next (faultEntry .overflow s) := by
  obtain ⟨i, x, y, hx, hy, hxy⟩ := h
  obtain ⟨a, ha, rfl⟩ := readCoeff_eq_some.mp hx
  obtain ⟨b, hb, rfl⟩ := readCoeff_eq_some.mp hy
  rw [combineBanks_of_banks ha hb, lanes_error ⟨i, hxy⟩]
  rfl

end

/-- ADD and SUB for any lane operation: the exact results in `rd` and nothing else changed, `UninitBank`, or
`Overflow`. -/
theorem combineCommand (f : Int → Int → Int) (rd ra rb : BankId) (s : State) :
    (s.valid ra = true → s.valid rb = true → ¬ laneOverflows f s ra rb →
      ∃ t, finish s (combineBanks f rd ra rb s) = .next t ∧ t.valid rd = true ∧ OneBeat t 0 ∧ FrameBut rd s t ∧
        ∀ i x y, s.readCoeff ra i = some x → s.readCoeff rb i = some y →
          ∃ z, t.readCoeff rd i = some z ∧ dec32 z = f (dec32 x) (dec32 y)) ∧
    (s.valid ra = false ∨ s.valid rb = false →
      finish s (combineBanks f rd ra rb s) = .next (faultEntry .uninitBank s)) ∧
    (laneOverflows f s ra rb → finish s (combineBanks f rd ra rb s) = .next (faultEntry .overflow s)) := by
  refine ⟨fun hra hrb hlanes => ?_, fun h => ?_, finish_combineBanks_of_laneOverflows⟩
  · obtain ⟨a, ha⟩ := valid_iff.mp hra
    obtain ⟨b, hb⟩ := valid_iff.mp hrb
    obtain ⟨c, hc⟩ := lanes_ok_of_not_laneOverflows ha hb hlanes
    refine ⟨_, finish_combineBanks_of_lanes ha hb hc, valid_writeBank_same s rd c, rfl,
      frameBut_writeBank_respond s rd c 0, fun i x y hx hy => ⟨coeff c i, ?_, ?_⟩⟩
    · exact readCoeff_of_bank (bank_writeBank_same s rd c) i
    · rw [readCoeff_of_bank ha, Option.some_inj] at hx
      rw [readCoeff_of_bank hb, Option.some_inj] at hy
      rw [dec32_coeff_of_lanes hc, hx, hy]
  · rw [not_valid_iff, not_valid_iff] at h
    rw [combineBanks_uninit h, finish_error]

/-- Settles O45: the lane operation is the sum. -/
theorem addCommand : Obligations.AddCommand := combineCommand (fun x y => x + y)

/-- Settles O46: the lane operation is the difference, `ra` minus `rb`. -/
theorem subCommand : Obligations.SubCommand := combineCommand (fun x y => x - y)

end Sys2Proof.Machine
end

section
/-! PROOFS. The response of `SEQ`, beat by beat (41_ring_element R136, 00_scope R13). -/

namespace Sys2Proof.Machine

/-- Beat `k` of a response carries value `k`, and is marked exactly when it is the last. -/
theorem getElem?_beatsOf (vs : List Word) (k : Nat) :
    (beatsOf vs)[k]? = vs[k]?.map fun v => { data := v, last := decide (k + 1 = vs.length), err := false } := by
  induction vs using beatsOf.induct generalizing k with
  | case1 => rfl
  | case2 v => cases k <;> simp [beatsOf]
  | case3 v vs hvs ih =>
    cases k with
    | zero => simpa [beatsOf] using hvs
    | succ k => simp [beatsOf, ih]

/-- Settles O47: the beats of the 256 coefficients in index order. -/
theorem seqCommand : Obligations.SeqCommand := by
  refine fun ra s => ⟨fun hra => ?_, fun hra => ?_⟩
  · obtain ⟨a, ha⟩ := valid_iff.mp hra
    refine ⟨beatsOf a.toList, ?_, by simp, fun k => ⟨coeff a k, readCoeff_of_bank ha k, ?_⟩⟩
    · simp only [exec, execSeq, readBank_ok ha, Except.map, finish_ok, State.respondSeq]
    · rw [getElem?_beatsOf]
      simp [coeff]
  · simp only [exec, execSeq, readBank_error (not_valid_iff.mp hra), Except.map, finish_error]

end Sys2Proof.Machine
end

section
/-! PROOFS. The laws of the ring's addition: of the lanes first, then at the commands (41_ring_element R137). -/

namespace Sys2Proof.Machine

/-! The laws of the lanes. -/

section
variable {f : Int → Int → Int} {a b c ab bc l r : RingElem}

/-- The lanes answer `c` exactly when the coefficients of `c` are the exact results: they are then in range. -/
theorem lanes_eq_ok_iff :
    lanes f a b = .ok c ↔ ∀ i, dec32 (coeff c i) = f (dec32 (coeff a i)) (dec32 (coeff b i)) := by
  refine ⟨dec32_coeff_of_lanes, fun h => ?_⟩
  rw [lanes_ok fun i => h i ▸ dec32_inInt32 (coeff c i)]
  refine congrArg _ (ring_ext fun i => ?_)
  rw [coeff_ringOf, ← h i, enc32_dec32]

theorem lanes_add_comm (a b : RingElem) : lanes (fun x y => x + y) a b = lanes (fun x y => x + y) b a := by
  have hresults : laneResults (fun x y => x + y) a b = laneResults (fun x y => x + y) b a :=
    List.zipWith_comm_of_comm (fun x y => Int.add_comm (dec32 x) (dec32 y))
  simp only [lanes, hresults]

theorem lanes_add_assoc (hab : lanes (fun x y => x + y) a b = .ok ab) (hl : lanes (fun x y => x + y) ab c = .ok l)
    (hbc : lanes (fun x y => x + y) b c = .ok bc) (hr : lanes (fun x y => x + y) a bc = .ok r) : l = r := by
  have hlr : lanes (fun x y => x + y) a bc = .ok l := by
    rw [lanes_eq_ok_iff] at *
    intro i
    rw [hl, hab, hbc, Int.add_assoc]
  exact Except.ok.inj (hlr.symm.trans hr)

theorem lanes_add_zero (a : RingElem) : lanes (fun x y => x + y) a zeroElem = .ok a := by
  refine lanes_eq_ok_iff.mpr fun i => ?_
  have hzero : dec32 0 = 0 := rfl
  rw [coeff_zeroElem, hzero, Int.add_zero]

/-- The subtraction of what was added never overflows: its result is the old, stored element. -/
theorem lanes_sub_of_add (h : lanes (fun x y => x + y) a b = .ok c) : lanes (fun x y => x - y) c b = .ok a := by
  rw [lanes_eq_ok_iff] at *
  intro i
  rw [h, Int.add_sub_cancel]

end

/-! The same at the commands. -/

/-- The addition of two banks, or the fault it raises, does not depend on their order: a missing source of either is
`UninitBank`. -/
theorem combinedSources_add_comm (ra rb : BankId) (s : State) :
    combinedSources (fun x y => x + y) ra rb s = combinedSources (fun x y => x + y) rb ra s := by
  simp only [combinedSources, readBank]
  cases s.bank ra with
  | none => cases s.bank rb <;> rfl
  | some a =>
    cases s.bank rb with
    | none => rfl
    | some b => exact lanes_add_comm a b

/-- What an ADD or SUB that left no fault recorded has done: it started with none recorded, and both sources held a ring
element whose lanes passed. -/
theorem of_finish_combineBanks {f : Int → Int → Int} {rd ra rb : BankId} {s t : State}
    (h : finish s (combineBanks f rd ra rb s) = .next t) (ht : t.fsr = none) :
    s.fsr = none ∧ ∃ a b c, s.bank ra = some a ∧ s.bank rb = some b ∧ lanes f a b = .ok c ∧
      t = (s.writeBank rd c).respond 0 := by
  obtain hok | ⟨c, -, rfl⟩ := finish_cases h
  · cases ha : s.bank ra with
    | none => simp [combineBanks_uninit (.inl ha)] at hok
    | some a =>
      cases hb : s.bank rb with
      | none => simp [combineBanks_uninit (.inr hb)] at hok
      | some b =>
        rw [combineBanks_of_banks ha hb, except_map_eq_ok] at hok
        obtain ⟨c, hc, rfl⟩ := hok
        exact ⟨ht, a, b, c, rfl, rfl, hc, rfl⟩
  · cases ht

/-- A bank of which every coefficient reads 0 holds the zero ring element. -/
theorem bank_eq_zeroElem {s : State} {rz : BankId} (h : ∀ i, s.readCoeff rz i = some 0) :
    s.bank rz = some zeroElem := by
  obtain ⟨z, hz, -⟩ := readCoeff_eq_some.mp (h 0)
  have hzero : z = zeroElem := ring_ext fun i => by
    rw [coeff_zeroElem, ← Option.some_inj, ← h i, readCoeff_of_bank hz]
  rw [hz, hzero]

/-- `ADD` is associative through the scratch bank `re`, which neither overwrites a source needed later. -/
theorem exec_add_assoc {rd re ra rb rc : BankId} {s t₁ t₂ u₁ u₂ : State} (hra : re ≠ ra) (hrc : re ≠ rc)
    (ht₁ : exec (.add re ra rb) s = .next t₁) (ht₂ : exec (.add rd re rc) t₁ = .next t₂) (ht : t₂.fsr = none)
    (hu₁ : exec (.add re rb rc) s = .next u₁) (hu₂ : exec (.add rd ra re) u₁ = .next u₂) (hu : u₂.fsr = none) :
    t₂.bank rd = u₂.bank rd := by
  obtain ⟨hsafe, ab, c, l, hab, hc, hl, rfl⟩ := of_finish_combineBanks ht₂ ht
  obtain ⟨-, a, b, ab', ha, hb, hab', rfl⟩ := of_finish_combineBanks ht₁ hsafe
  obtain ⟨hsafe, a', bc, r, ha', hbc, hr, rfl⟩ := of_finish_combineBanks hu₂ hu
  obtain ⟨-, b', c', bc', hb', hc', hbc', rfl⟩ := of_finish_combineBanks hu₁ hsafe
  simp only [State.respond_bank, bank_writeBank_same, bank_writeBank_other _ _ hra, bank_writeBank_other _ _ hrc,
    Option.some_inj] at hab hc ha' hbc ⊢
  subst hab hbc
  cases ha.symm.trans ha'
  cases hb.symm.trans hb'
  cases hc.symm.trans hc'
  exact lanes_add_assoc hab' hl hbc' hr

/-- Settles O50: commutation, associativity, the identity and the inverse of the lanes, each at the commands. -/
theorem ringLaws : Obligations.RingLaws := by
  refine ⟨fun rd ra rb s => ?_, ?_, fun rd ra rz s hra hrz => ?_, fun rd re ra rb s t _ hrb h ht => ?_⟩
  · simp only [exec, execAdd, combineBanks_eq_map, combinedSources_add_comm ra rb]
  · exact fun rd re ra rb rc s t₁ t₂ u₁ u₂ _ hra hrc ht₁ ht₂ ht hu₁ hu₂ hu =>
      exec_add_assoc hra hrc ht₁ ht₂ ht hu₁ hu₂ hu
  · obtain ⟨a, ha⟩ := valid_iff.mp hra
    refine ⟨_, finish_combineBanks_of_lanes ha (bank_eq_zeroElem hrz) (lanes_add_zero a), ⟨rfl, rfl, rfl⟩, ?_⟩
    rw [State.respond_bank, bank_writeBank_same, ha]
  · obtain ⟨-, a, b, c, ha, hb, hc, rfl⟩ := of_finish_combineBanks h ht
    have hre : ((s.writeBank re c).respond 0).bank re = some c := bank_writeBank_same s re c
    have hrb' : ((s.writeBank re c).respond 0).bank rb = some b := (bank_writeBank_other s c hrb).trans hb
    refine ⟨_, finish_combineBanks_of_lanes hre hrb' (lanes_sub_of_add hc), ⟨rfl, rfl, rfl⟩, ?_⟩
    rw [State.respond_bank, bank_writeBank_same, ha]

end Sys2Proof.Machine
end

section
/-! PROOFS. The in-place reductions as one template over any reduction: the one coefficient they replace, and their four
faults in order (42_inplace_reduction R160 to R163). -/

namespace Sys2Proof.Machine

/-- With all four checks passed, an update stores the new value at the coefficient it addresses. -/
theorem finish_updateCoeff_of_value {f : Word → Except Cause Word} {rd : BankId} {idx : Index} {s : State}
    {a : RingElem} {z : Word} (htrusted : s.cmd.trusted = true) (ha : s.bank rd = some a) (hlt : idx.toNat < 256)
    (hz : f (coeff a ⟨idx.toNat, hlt⟩) = .ok z) :
    finish s (updateCoeff f rd idx s) = .next ((s.writeBank rd (setCoeff a ⟨idx.toNat, hlt⟩ z)).respond 0) := by
  simp only [updateCoeff_of_checks htrusted ha hlt, hz, Except.map, finish_ok]

/-- With the first three checks passed, what the new value raises is the fault. -/
theorem finish_updateCoeff_of_error {f : Word → Except Cause Word} {rd : BankId} {idx : Index} {s : State}
    {a : RingElem} {c : Cause} (htrusted : s.cmd.trusted = true) (ha : s.bank rd = some a) (hlt : idx.toNat < 256)
    (hc : f (coeff a ⟨idx.toNat, hlt⟩) = .error c) :
    finish s (updateCoeff f rd idx s) = .next (faultEntry c s) := by
  simp only [updateCoeff_of_checks htrusted ha hlt, hc, Except.map, finish_error]

/-- An in-place command whose reduction of `v` answers, outside `overflows`, an int32 `r` with `Answer v r`, and raises
`Overflow` on `overflows`: the one coefficient replaced by such an `r` and nothing else changed, or one of the four
faults. -/
theorem inPlaceCommand {f : Int → Except Cause Int} {overflows : Int → Prop} {Answer : Int → Int → Prop}
    (hok : ∀ v, InInt32 v → ¬ overflows v → ∃ r, f v = .ok r ∧ InInt32 r ∧ Answer v r)
    (herror : ∀ v, InInt32 v → overflows v → f v = .error .overflow) (rd : BankId) (idx : Index) (s : State) :
    (∀ i x, i.val = idx.toNat → s.readCoeff rd i = some x → s.cmd.trusted = true →
      (¬ overflows (dec32 x) → ∃ t z, finish s (reduceInPlace f rd idx s) = .next t ∧ WroteOneCoeff rd i z s t ∧
        Answer (dec32 x) (dec32 z)) ∧
      (overflows (dec32 x) → finish s (reduceInPlace f rd idx s) = .next (faultEntry .overflow s))) ∧
    (s.cmd.trusted = false → finish s (reduceInPlace f rd idx s) = .next (faultEntry .privilegeFault s)) ∧
    (s.cmd.trusted = true → s.valid rd = false →
      finish s (reduceInPlace f rd idx s) = .next (faultEntry .uninitBank s)) ∧
    (s.cmd.trusted = true → s.valid rd = true → 256 ≤ idx.toNat →
      finish s (reduceInPlace f rd idx s) = .next (faultEntry .indexFault s)) := by
  simp only [reduceInPlace]
  refine ⟨fun i x hi hx htrusted => ?_, fun htrusted => ?_, fun htrusted hrd => ?_, fun htrusted hrd hidx => ?_⟩
  · obtain ⟨a, ha, rfl⟩ := readCoeff_eq_some.mp hx
    have hlt : idx.toNat < 256 := hi ▸ i.isLt
    obtain rfl : i = ⟨idx.toNat, hlt⟩ := Fin.ext hi
    have hint := dec32_inInt32 (coeff a ⟨idx.toNat, hlt⟩)
    refine ⟨fun hrange => ?_, fun hover => ?_⟩
    · obtain ⟨r, hr, hr32, hanswer⟩ := hok _ hint hrange
      rw [← dec32_enc32 hr32] at hanswer
      exact ⟨_, enc32 r, finish_updateCoeff_of_value htrusted ha hlt (reduceWord_ok hr),
        wroteOneCoeff_setCoeff ha _ _, hanswer⟩
    · exact finish_updateCoeff_of_error htrusted ha hlt (reduceWord_error (herror _ hint hover))
  · rw [updateCoeff_privilege htrusted, finish_error]
  · rw [updateCoeff_uninit htrusted (not_valid_iff.mp hrd), finish_error]
  · obtain ⟨a, ha⟩ := valid_iff.mp hrd
    rw [updateCoeff_index htrusted ha hidx, finish_error]

/-- Settles O51: BARRETT in place, its answer the residue within 1665. -/
theorem barrettInPlaceCommand : Obligations.BarrettInPlaceCommand :=
  inPlaceCommand
    (Answer := fun v r => r = barrettValue v ∧ (r - v) % 3329 = 0 ∧ -1665 ≤ r ∧ r ≤ 1665)
    (fun v _ hrange => by
      have hr := barrett_of_not_overflows hrange
      obtain ⟨hlo, hhi⟩ := barrettValue_bounds hrange
      exact ⟨_, hr, ⟨by omega, by omega⟩, rfl, barrett_emod hr, hlo, hhi⟩)
    (fun _ _ => barrett_of_overflows)

/-- Settles O52: MONT in place, its answer times the radix congruent to the operand. -/
theorem montInPlaceCommand : Obligations.MontInPlaceCommand :=
  inPlaceCommand
    (Answer := fun v r => r = montValue v ∧ (r * 65536 - v) % 3329 = 0)
    (fun v hv hrange => by
      have hr := mont_of_not_overflows hv.2 hrange
      exact ⟨_, hr, montValue_inInt32 hv hrange, rfl,
        Int.emod_eq_zero_of_dvd (q_dvd_mont_mul_montR_sub params_ok hr)⟩)
    (fun _ hv => mont_of_overflows hv.2)

/-- Settles O53: TOMONT in place, its answer that of MONT on the product. -/
theorem tomontInPlaceCommand : Obligations.TomontInPlaceCommand :=
  inPlaceCommand
    (Answer := fun v r => r = montValue (1353 * v) ∧ (r - v * 65536) % 3329 = 0)
    (fun v _ hrange => by
      have hr := tomont_of_not_overflows hrange
      obtain ⟨hproduct, hmont⟩ := not_tomontOverflows_iff.mp hrange
      exact ⟨_, hr, montValue_inInt32 hproduct hmont, rfl, tomont_emod hr⟩)
    (fun _ _ => tomont_of_overflows)

end Sys2Proof.Machine
end

section
/-! PROOFS. An in-place reduction is the sequence GET, scalar reduction, SET: the same checks in the same order, and the
same one write (42_inplace_reduction R160). -/

namespace Sys2Proof.Machine

/-! A sequence of commands stops at a fault, and otherwise goes on with the value answered. -/

@[simp] theorem andThen_faultEntry (c : Cause) (s : State) (next : Word → Instr) :
    andThen (.next (faultEntry c s)) next = .next (faultEntry c s) := rfl

theorem andThen_respond {s : State} (hsafe : Safe s) (v : Word) (next : Word → Instr) :
    andThen (.next (s.respond v)) next = exec (next v) (s.respond v) :=
  if_pos hsafe

/-- Fault entry after an intermediate response is fault entry from the state before it: both replace the response. -/
@[simp] theorem faultEntry_respond (c : Cause) (s : State) (v : Word) :
    faultEntry c (s.respond v) = faultEntry c s := rfl

/-- Only the last response is left. -/
@[simp] theorem writeBank_respond_respond (s : State) (v w : Word) (rd : BankId) (a : RingElem) :
    ((s.respond v).writeBank rd a).respond w = (s.writeBank rd a).respond w := rfl

/-- `SET` past its checks stores `imm` as it stands (41 R133). -/
theorem exec_set_of_lt {s : State} {rd : BankId} {idx : Index} {a : RingElem} (htrusted : s.cmd.trusted = true)
    (ha : s.bank rd = some a) (hlt : idx.toNat < 256) (imm : Word) :
    exec (.set rd idx imm) s = .next ((s.writeBank rd (setCoeff a ⟨idx.toNat, hlt⟩ imm)).respond 0) :=
  finish_updateCoeff_of_value htrusted ha hlt rfl

/-- The in-place form of any scalar reduction is the sequence of 42 R160, one case for each outcome of the checks. -/
theorem reduceInPlace_eq_getReduceSet {f : Int → Except Cause Int} {reduce : Word → Instr}
    (hreduce : ∀ imm s, exec (reduce imm) s = finish s (respondReduced f imm s)) (rd : BankId) (idx : Index)
    {s : State} (htrusted : s.cmd.trusted = true) (hsafe : Safe s) :
    finish s (reduceInPlace f rd idx s) = getReduceSet reduce rd idx s := by
  rw [reduceInPlace, getReduceSet]
  cases ha : s.bank rd with
  | none => simp [updateCoeff_uninit htrusted ha, exec_get_uninit idx ha]
  | some a =>
    rcases lt_or_ge idx.toNat 256 with hlt | hge
    · rw [exec_get_of_lt ha hlt, andThen_respond hsafe, hreduce]
      generalize hx : coeff a ⟨idx.toNat, hlt⟩ = x
      cases hr : f (dec32 x) with
      | error c =>
        rw [finish_updateCoeff_of_error htrusted ha hlt (by rw [hx, reduceWord_error hr]), respondReduced_error _ hr]
        simp
      | ok r =>
        rw [finish_updateCoeff_of_value htrusted ha hlt (by rw [hx, reduceWord_ok hr]), respondReduced_ok _ hr,
          finish_ok, andThen_respond (s := s.respond x) hsafe,
          exec_set_of_lt (s := (s.respond x).respond (enc32 r)) htrusted ha hlt]
        simp
    · simp [updateCoeff_index htrusted ha hge, exec_get_of_ge ha hge]

/-- Settles O54: each in-place command with its own scalar reduction. -/
theorem inPlaceIsGetReduceSet : Obligations.InPlaceIsGetReduceSet := by
  intro rd idx s htrusted hsafe
  refine ⟨?_, ?_, ?_⟩ <;> exact reduceInPlace_eq_getReduceSet (fun _ _ => rfl) rd idx htrusted hsafe

end Sys2Proof.Machine
end

section
/-! PROOFS. Updates of different coefficients commute: each sees the value the other leaves alone
(42_inplace_reduction R164). -/

namespace Sys2Proof.Machine

theorem setCoeff_comm (a : RingElem) {i j : Fin 256} (h : i ≠ j) (v w : Word) :
    setCoeff (setCoeff a i v) j w = setCoeff (setCoeff a j w) i v :=
  Vector.set_comm _ _ (Fin.val_ne_of_ne h)

/-- Of two writes to one bank, only the last is left. -/
theorem writeBank_respond_writeBank (s : State) (rd : BankId) (a b : RingElem) (v w : Word) :
    (((s.writeBank rd a).respond v).writeBank rd b).respond w = (s.writeBank rd b).respond w := by
  simp [State.writeBank, State.respond]

/-- An update that left no fault recorded has passed its checks and written the new value. -/
theorem of_finish_updateCoeff {f : Word → Except Cause Word} {rd : BankId} {idx : Index} {s t : State}
    (h : finish s (updateCoeff f rd idx s) = .next t) (ht : Safe t) :
    Safe s ∧ s.cmd.trusted = true ∧ ∃ (a : RingElem) (hlt : idx.toNat < 256) (z : Word), s.bank rd = some a ∧
      f (coeff a ⟨idx.toNat, hlt⟩) = .ok z ∧ t = (s.writeBank rd (setCoeff a ⟨idx.toNat, hlt⟩ z)).respond 0 := by
  obtain hok | ⟨c, -, rfl⟩ := finish_cases h
  · obtain ⟨htrusted, a, hlt, z, ha, hz, rfl⟩ := of_updateCoeff_eq_ok hok
    exact ⟨ht, htrusted, a, hlt, z, ha, hz, rfl⟩
  · cases ht

/-- Two updates at different indices that complete in one order complete in the other, and to the same state. -/
theorem finish_updateCoeff_comm {f g : Word → Except Cause Word} {rd : BankId} {j k : Index} {s t₁ t₂ : State}
    (hjk : j ≠ k) (h₁ : finish s (updateCoeff f rd j s) = .next t₁)
    (h₂ : finish t₁ (updateCoeff g rd k t₁) = .next t₂) (ht : Safe t₂) :
    ∃ u, finish s (updateCoeff g rd k s) = .next u ∧ finish u (updateCoeff f rd j u) = .next t₂ := by
  obtain ⟨hsafe, -, b, hk, y, hb, hy, rfl⟩ := of_finish_updateCoeff h₂ ht
  obtain ⟨-, htrusted, a, hj, x, ha, hx, rfl⟩ := of_finish_updateCoeff h₁ hsafe
  have hne : (⟨j.toNat, hj⟩ : Fin 256) ≠ ⟨k.toNat, hk⟩ := fun h =>
    hjk (BitVec.eq_of_toNat_eq (Fin.mk.inj h))
  rw [State.respond_bank, bank_writeBank_same, Option.some_inj] at hb
  subst hb
  rw [coeff_setCoeff, if_neg hne] at hy
  refine ⟨_, finish_updateCoeff_of_value htrusted ha hk hy, ?_⟩
  have hx' : f (coeff (setCoeff a ⟨k.toNat, hk⟩ y) ⟨j.toNat, hj⟩) = .ok x := by
    rw [coeff_setCoeff, if_neg hne.symm, hx]
  rw [finish_updateCoeff_of_value (s := (s.writeBank rd (setCoeff a ⟨k.toNat, hk⟩ y)).respond 0) htrusted
      (bank_writeBank_same s rd _) hj hx', writeBank_respond_writeBank, writeBank_respond_writeBank,
    setCoeff_comm a hne]

theorem exec_eq_finish_updateCoeff {i : BankId → Index → Instr}
    (h : i ∈ [Instr.barrettI, Instr.montI, Instr.tomontI]) :
    ∃ f, ∀ rd idx s, exec (i rd idx) s = finish s (updateCoeff f rd idx s) := by
  simp only [List.mem_cons, List.not_mem_nil, or_false] at h
  obtain rfl | rfl | rfl := h <;> exact ⟨_, fun _ _ _ => rfl⟩

/-- Settles O55: both in-place commands are updates of one coefficient. -/
theorem inPlaceCommandsCommute : Obligations.InPlaceCommandsCommute := by
  intro i i' rd j k s t₁ t₂ hi hi' hjk _ h₁ h₂ ht
  obtain ⟨f, hf⟩ := exec_eq_finish_updateCoeff hi
  obtain ⟨g, hg⟩ := exec_eq_finish_updateCoeff hi'
  rw [hf] at h₁
  rw [hg] at h₂
  simp only [hf, hg]
  exact finish_updateCoeff_comm hjk h₁ h₂ ht

end Sys2Proof.Machine
end

section
/-! PROOFS. The constant access command: what each selector reads, and that a larger one is no command
(43_constants_access R181; 10_state R29; 30_encoding R75 (d)). -/

namespace Sys2Proof.Machine

/-- The constant space of the reference set, as the table of 10_state R29 lists it. -/
theorem constant_params (sel : Index) : constant Config.params sel =
    [3329, 256, 26, 20159, 16, 62209, 1353, 4][sel.toNat]?.map (BitVec.ofNat 32) := by
  simp only [constant]
  generalize sel.toNat = n
  rcases lt_or_ge n 8 with hlt | hge
  · interval_cases n <;> rfl
  · obtain ⟨k, rfl⟩ := Nat.exists_eq_add_of_le' hge
    rfl

/-- A word with RDC's opcode that decodes has a selector of the constant space. -/
theorem selector_le_of_decode {w : CmdWord} {i : Instr} (hop : (unpack w).op = Op.rdc.code)
    (h : decode w = .ok i) : (unpack w).idx.toNat ≤ 7 := by
  obtain ⟨o, hlegal, -⟩ := decode_eq_ok_iff.mp h
  have ho : o = .rdc := by simpa using congrArg opOfCode (hlegal.op_eq.symm.trans hop)
  exact wellFormed_build_iff.mp hlegal.wellFormed ho

/-- Settles O56: the answer by the table of constants, the larger selectors by the decoder's last check. -/
theorem rdcCommand : Obligations.RdcCommand := by
  refine ⟨fun sel s v hv => exec_rdc_of_constant s ?_, fun w hop hsel => ?_⟩
  · rw [constant_params, hv, Option.map_some]
  · cases hd : decode w with
    | error e => exact ⟨e, rfl⟩
    | ok i => exact absurd (selector_le_of_decode hop hd) hsel.not_ge

end Sys2Proof.Machine
end

section
/-! PROOFS. The first check of a command that fails decides how it ends: its cause is recorded by fault entry, and with none
failing the fault record is kept (60_exceptions R199). Said once for all thirteen commands. -/

namespace Sys2Proof.Machine

open Classical in
/-- The cause of the first check of command `i` that fails in state `s`, in the order of 60 R199; `none` when all pass. -/
noncomputable def firstFailure (i : Instr) (s : State) : Option Cause :=
  if i.wellFormed = false then some .illegalCommand
  else if privilegeFails i s then some .privilegeFault
  else if bankFails i s then some .uninitBank
  else if indexFails i then some .indexFault
  else if arithmeticFails i s then some .overflow
  else none

/-- Every check of command `i` before its arithmetic passes in state `s`. -/
structure OperandChecksPass (i : Instr) (s : State) : Prop where
  wellFormed : i.wellFormed = true
  privilege : ¬ privilegeFails i s
  bank : ¬ bankFails i s
  index : ¬ indexFails i

section
variable {i : Instr} {s t : State}

theorem firstFailure_of_not_wellFormed (hwf : i.wellFormed = false) : firstFailure i s = some .illegalCommand :=
  if_pos hwf

theorem firstFailure_of_privilegeFails (hwf : i.wellFormed = true) (h : privilegeFails i s) :
    firstFailure i s = some .privilegeFault := by
  simp [firstFailure, hwf, h]

theorem firstFailure_of_bankFails (hwf : i.wellFormed = true) (hp : ¬ privilegeFails i s) (h : bankFails i s) :
    firstFailure i s = some .uninitBank := by
  simp [firstFailure, hwf, hp, h]

theorem firstFailure_of_indexFails (hwf : i.wellFormed = true) (hp : ¬ privilegeFails i s) (hb : ¬ bankFails i s)
    (h : indexFails i) : firstFailure i s = some .indexFault := by
  simp [firstFailure, hwf, hp, hb, h]

theorem firstFailure_of_arithmeticFails (hpass : OperandChecksPass i s) (h : arithmeticFails i s) :
    firstFailure i s = some .overflow := by
  simp [firstFailure, hpass.wellFormed, hpass.privilege, hpass.bank, hpass.index, h]

theorem firstFailure_of_pass (hpass : OperandChecksPass i s) (h : ¬ arithmeticFails i s) :
    firstFailure i s = none := by
  simp [firstFailure, hpass.wellFormed, hpass.privilege, hpass.bank, hpass.index, h]

/-- Check by check, why `c` is the cause of the first failure: its check fails and those before it pass. -/
inductive FailsFirst (i : Instr) (s : State) : Cause → Prop where
  | decode (hwf : i.wellFormed = false) : FailsFirst i s .illegalCommand
  | privilege (hp : privilegeFails i s) : FailsFirst i s .privilegeFault
  | bank (hp : ¬ privilegeFails i s) (hb : bankFails i s) : FailsFirst i s .uninitBank
  | index (hp : ¬ privilegeFails i s) (hb : ¬ bankFails i s) (hi : indexFails i) : FailsFirst i s .indexFault
  | arithmetic (hpass : OperandChecksPass i s) (ha : arithmeticFails i s) : FailsFirst i s .overflow

/-- All a first failure can be. -/
theorem failsFirst_of_firstFailure {c : Cause} (h : firstFailure i s = some c) : FailsFirst i s c := by
  rw [firstFailure] at h
  split_ifs at h with hwf hp hb hi ha <;> cases h
  · exact .decode hwf
  · exact .privilege hp
  · exact .bank hp hb
  · exact .index hp hb hi
  · exact .arithmetic ⟨eq_true_of_ne_false hwf, hp, hb, hi⟩ ha

/-! Whether the bank and index checks fail, from the operands a command uses. -/

theorem not_privilegeFails_of_public (hop : i.op.restricted = false) : ¬ privilegeFails i s := by
  simp [privilegeFails, hop]

theorem not_privilegeFails_of_trusted (htrusted : s.cmd.trusted = true) : ¬ privilegeFails i s := by
  simp [privilegeFails, htrusted]

theorem bankFails_iff_of_singleton {b : BankId} (hbanks : i.banksRead = [b]) : bankFails i s ↔ s.bank b = none := by
  simp [bankFails, hbanks, not_valid_iff]

theorem bankFails_iff_of_pair {b b' : BankId} (hbanks : i.banksRead = [b, b']) :
    bankFails i s ↔ s.bank b = none ∨ s.bank b' = none := by
  simp [bankFails, hbanks, not_valid_iff]

theorem not_bankFails_of_nil (hbanks : i.banksRead = []) : ¬ bankFails i s := by
  simp [bankFails, hbanks]

theorem indexFails_iff_of_some {idx : Index} (hidx : i.indexUsed = some idx) : indexFails i ↔ 256 ≤ idx.toNat := by
  simp [indexFails, hidx]

theorem not_indexFails_of_none (hidx : i.indexUsed = none) : ¬ indexFails i := by
  simp [indexFails, hidx]

/-! How the arithmetic of a command ends, and how a command ends. -/

/-- The arithmetic of command `i` raises `Overflow` where the command's arithmetic check fails, and answers elsewhere. -/
inductive ArithmeticEnds (i : Instr) (s : State) {α : Type} : Except Cause α → Prop where
  | overflow (h : arithmeticFails i s) : ArithmeticEnds i s (.error .overflow)
  | answer (h : ¬ arithmeticFails i s) (x : α) : ArithmeticEnds i s (.ok x)

/-- Checks and effect of a command started in `s` end as its first failure says: in that cause, or in a state with the fault
record of `s`. -/
inductive EndsWith (s : State) : Option Cause → Except Cause State → Prop where
  | fault (c : Cause) : EndsWith s (some c) (.error c)
  | completion {t : State} (hrecord : SameRecord s t) : EndsWith s none (.ok t)

/-- Past the other checks the arithmetic decides; what the command makes of its result keeps the fault record. -/
theorem endsWith_map_of_arithmeticEnds {α : Type} {e : Except Cause α} {g : α → State} (hpass : OperandChecksPass i s)
    (he : ArithmeticEnds i s e) (hg : ∀ x, SameRecord s (g x)) : EndsWith s (firstFailure i s) (e.map g) := by
  cases he with
  | overflow h => exact firstFailure_of_arithmeticFails hpass h ▸ .fault _
  | answer h x => exact firstFailure_of_pass hpass h ▸ .completion (hg x)

/-! The reductions. -/

/-- On int32, `f` raises `Overflow` on the numbers with property `p` and answers on the others. -/
def OverflowsOn (f : Int → Except Cause Int) (p : Int → Prop) : Prop :=
  ∀ v, InInt32 v → (p v → f v = .error .overflow) ∧ (¬ p v → ∃ r, f v = .ok r)

theorem overflowsOn_barrett : OverflowsOn (barrett Config.params) barrettOverflows :=
  fun _ _ => ⟨barrett_of_overflows, fun h => ⟨_, barrett_of_not_overflows h⟩⟩

theorem overflowsOn_mont : OverflowsOn (mont Config.params) montOverflows :=
  fun _ hv => ⟨mont_of_overflows hv.2, fun h => ⟨_, mont_of_not_overflows hv.2 h⟩⟩

theorem overflowsOn_tomont : OverflowsOn (tomont Config.params) tomontOverflows :=
  fun _ _ => ⟨tomont_of_overflows, fun h => ⟨_, tomont_of_not_overflows h⟩⟩

theorem arithmeticEnds_reduceWord {f : Int → Except Cause Int} {p : Int → Prop} {w : Word} (hf : OverflowsOn f p)
    (harith : arithmeticFails i s ↔ p (dec32 w)) : ArithmeticEnds i s (reduceWord f w) := by
  obtain ⟨hover, hanswer⟩ := hf (dec32 w) (dec32_inInt32 w)
  by_cases h : p (dec32 w)
  · rw [reduceWord_error (hover h)]
    exact .overflow (harith.mpr h)
  · obtain ⟨r, hr⟩ := hanswer h
    rw [reduceWord_ok hr]
    exact .answer (mt harith.mp h) _

/-- The coefficient a command addresses, in a bank that holds a ring element and at an index in range. -/
theorem coeffIs_iff {p : Int → Prop} {rd : BankId} {idx : Index} {a : RingElem} (ha : s.bank rd = some a)
    (hlt : idx.toNat < 256) : coeffIs p s rd idx ↔ p (dec32 (coeff a ⟨idx.toNat, hlt⟩)) := by
  constructor
  · rintro ⟨i, hi, x, hx, hp⟩
    obtain rfl : i = ⟨idx.toNat, hlt⟩ := Fin.ext hi
    rw [readCoeff_of_bank ha, Option.some_inj] at hx
    exact hx ▸ hp
  · exact fun hp => ⟨⟨idx.toNat, hlt⟩, rfl, _, readCoeff_of_bank ha _, hp⟩

/-! The shared templates of the commands. -/

/-- The scalar commands have no check but the arithmetic of their reduction (40 R100). -/
theorem endsWith_respondReduced {f : Int → Except Cause Int} {p : Int → Prop} {imm : Word} (hf : OverflowsOn f p)
    (hwf : i.wellFormed = true) (hop : i.op.restricted = false) (hbanks : i.banksRead = [])
    (hidx : i.indexUsed = none) (harith : arithmeticFails i s ↔ p (dec32 imm)) :
    EndsWith s (firstFailure i s) (respondReduced f imm s) :=
  endsWith_map_of_arithmeticEnds
    ⟨hwf, not_privilegeFails_of_public hop, not_bankFails_of_nil hbanks, not_indexFails_of_none hidx⟩
    (arithmeticEnds_reduceWord hf harith) fun _ => ⟨rfl, rfl, rfl⟩

/-- ADD and SUB check both sources, then the lanes (41 R134, R135). -/
theorem endsWith_combineBanks {f : Int → Int → Int} {rd ra rb : BankId} (hwf : i.wellFormed = true)
    (hop : i.op.restricted = false) (hbanks : i.banksRead = [ra, rb]) (hidx : i.indexUsed = none)
    (harith : arithmeticFails i s ↔ laneOverflows f s ra rb) :
    EndsWith s (firstFailure i s) (combineBanks f rd ra rb s) := by
  have hp : ¬ privilegeFails i s := not_privilegeFails_of_public hop
  by_cases hb : bankFails i s
  · rw [firstFailure_of_bankFails hwf hp hb, combineBanks_uninit ((bankFails_iff_of_pair hbanks).mp hb)]
    exact .fault _
  · obtain ⟨hra, hrb⟩ := not_or.mp (mt (bankFails_iff_of_pair hbanks).mpr hb)
    obtain ⟨a, ha⟩ := Option.ne_none_iff_exists'.mp hra
    obtain ⟨b, hb'⟩ := Option.ne_none_iff_exists'.mp hrb
    rw [combineBanks_of_banks ha hb']
    refine endsWith_map_of_arithmeticEnds ⟨hwf, hp, hb, not_indexFails_of_none hidx⟩ ?_ fun _ => ⟨rfl, rfl, rfl⟩
    by_cases hlanes : laneOverflows f s ra rb
    · rw [lanes_error ((laneOverflows_iff ha hb').mp hlanes)]
      exact .overflow (harith.mpr hlanes)
    · obtain ⟨c, hc⟩ := lanes_ok_of_not_laneOverflows ha hb' hlanes
      exact hc ▸ .answer (mt harith.mp hlanes) c

/-- The commands on one coefficient past their privilege check: bank, index, then arithmetic (41 R130, 42 R160). -/
theorem endsWith_locate {α : Type} {e : RingElem × Fin 256 → Except Cause α} {g : RingElem × Fin 256 → α → State}
    {b : BankId} {idx : Index} (hwf : i.wellFormed = true) (hp : ¬ privilegeFails i s) (hbanks : i.banksRead = [b])
    (hidx : i.indexUsed = some idx)
    (he : ∀ a (hlt : idx.toNat < 256), s.bank b = some a → ArithmeticEnds i s (e (a, ⟨idx.toNat, hlt⟩)))
    (hg : ∀ p x, SameRecord s (g p x)) :
    EndsWith s (firstFailure i s) (locate s b idx >>= fun p => (e p).map (g p)) := by
  have hbank := bankFails_iff_of_singleton (s := s) hbanks
  have hindex := indexFails_iff_of_some hidx
  cases ha : s.bank b with
  | none =>
    rw [locate_uninit ha, firstFailure_of_bankFails hwf hp (hbank.mpr ha)]
    exact .fault _
  | some a =>
    have hb : ¬ bankFails i s := by simp [hbank, ha]
    rcases lt_or_ge idx.toNat 256 with hlt | hge
    · rw [locate_ok ha hlt]
      exact endsWith_map_of_arithmeticEnds ⟨hwf, hp, hb, by rwa [hindex, not_le]⟩ (he a hlt ha) (hg _)
    · rw [locate_index ha hge, firstFailure_of_indexFails hwf hp hb (hindex.mpr hge)]
      exact .fault _

theorem updateCoeff_of_trusted (f : Word → Except Cause Word) (rd : BankId) (idx : Index)
    (htrusted : s.cmd.trusted = true) :
    updateCoeff f rd idx s = (locate s rd idx >>= fun p => (f (coeff p.1 p.2)).map fun z =>
      (s.writeBank rd (setCoeff p.1 p.2 z)).respond 0) := by
  rw [updateCoeff, checkTrusted_ok htrusted]
  exact congrArg (locate s rd idx >>= ·) (funext fun p => bind_pure_comp (m := Except Cause) _ (f (coeff p.1 p.2)))

/-- The restricted commands check trust before all else (42 R160). -/
theorem endsWith_updateCoeff {f : Word → Except Cause Word} {rd : BankId} {idx : Index} (hwf : i.wellFormed = true)
    (hop : i.op.restricted = true) (hbanks : i.banksRead = [rd]) (hidx : i.indexUsed = some idx)
    (he : ∀ a (hlt : idx.toNat < 256), s.bank rd = some a → ArithmeticEnds i s (f (coeff a ⟨idx.toNat, hlt⟩))) :
    EndsWith s (firstFailure i s) (updateCoeff f rd idx s) := by
  cases htrusted : s.cmd.trusted with
  | false =>
    rw [updateCoeff_privilege htrusted, firstFailure_of_privilegeFails hwf ⟨hop, htrusted⟩]
    exact .fault _
  | true =>
    rw [updateCoeff_of_trusted f rd idx htrusted]
    exact endsWith_locate (e := fun p => f (coeff p.1 p.2)) hwf (not_privilegeFails_of_trusted htrusted) hbanks hidx he
      fun _ _ => ⟨rfl, rfl, rfl⟩

theorem endsWith_get (ra : BankId) (idx : Index) :
    EndsWith s (firstFailure (.get ra idx) s) ((locate s ra idx).map fun p => s.respond (coeff p.1 p.2)) := by
  have hmap : (locate s ra idx).map (fun p => s.respond (coeff p.1 p.2)) =
      (locate s ra idx >>= fun p => (Except.ok p).map fun p => s.respond (coeff p.1 p.2)) :=
    (bind_pure_comp (m := Except Cause) _ _).symm
  rw [hmap]
  exact endsWith_locate rfl (not_privilegeFails_of_public rfl) rfl rfl (fun _ _ _ => .answer id _)
    fun _ _ => ⟨rfl, rfl, rfl⟩

theorem endsWith_seq (ra : BankId) :
    EndsWith s (firstFailure (.seq ra) s) ((readBank s ra).map fun a => s.respondSeq a.toList) := by
  have hp : ¬ privilegeFails (.seq ra) s := not_privilegeFails_of_public rfl
  have hbank : bankFails (.seq ra) s ↔ s.bank ra = none := bankFails_iff_of_singleton rfl
  cases ha : s.bank ra with
  | none =>
    rw [readBank_error ha, firstFailure_of_bankFails rfl hp (hbank.mpr ha)]
    exact .fault _
  | some a =>
    have hb : ¬ bankFails (.seq ra) s := by simp [hbank, ha]
    rw [readBank_ok ha, firstFailure_of_pass ⟨rfl, hp, hb, not_indexFails_of_none rfl⟩ id]
    exact .completion ⟨rfl, rfl, rfl⟩

/-- A command with no bank and no index checks its selector at most, and then has nothing left to fail. -/
theorem firstFailure_of_no_operand_check (hwf : i.wellFormed = true) (hop : i.op.restricted = false)
    (hbanks : i.banksRead = []) (hidx : i.indexUsed = none) (harith : ¬ arithmeticFails i s) :
    firstFailure i s = none :=
  firstFailure_of_pass
    ⟨hwf, not_privilegeFails_of_public hop, not_bankFails_of_nil hbanks, not_indexFails_of_none hidx⟩ harith

theorem constant_eq_none {sel : Index} (h : ¬ sel.toNat ≤ 7) : constant Config.params sel = none := by
  rw [constant_params, Option.map_eq_none_iff, List.getElem?_eq_none_iff]
  exact not_le.mp h

end

/-- Every command is checks and an effect that end as its first failure says. -/
theorem exec_eq_finish (i : Instr) (s : State) :
    ∃ r, exec i s = finish s r ∧ EndsWith s (firstFailure i s) r := by
  cases i with
  | barrett imm => exact ⟨_, rfl, endsWith_respondReduced overflowsOn_barrett rfl rfl rfl rfl .rfl⟩
  | mont imm => exact ⟨_, rfl, endsWith_respondReduced overflowsOn_mont rfl rfl rfl rfl .rfl⟩
  | tomont imm => exact ⟨_, rfl, endsWith_respondReduced overflowsOn_tomont rfl rfl rfl rfl .rfl⟩
  | zero rd =>
    rw [firstFailure_of_no_operand_check rfl rfl rfl rfl id]
    exact ⟨.ok ((s.writeBank rd zeroElem).respond 0), rfl, .completion ⟨rfl, rfl, rfl⟩⟩
  | get ra idx => exact ⟨_, rfl, endsWith_get ra idx⟩
  | set rd idx imm => exact ⟨_, rfl, endsWith_updateCoeff rfl rfl rfl rfl fun _ _ _ => .answer id imm⟩
  | add rd ra rb | sub rd ra rb => exact ⟨_, rfl, endsWith_combineBanks rfl rfl rfl rfl .rfl⟩
  | seq ra => exact ⟨_, rfl, endsWith_seq ra⟩
  | barrettI rd idx =>
    exact ⟨_, rfl, endsWith_updateCoeff rfl rfl rfl rfl fun _ hlt ha =>
      arithmeticEnds_reduceWord overflowsOn_barrett (coeffIs_iff ha hlt)⟩
  | montI rd idx =>
    exact ⟨_, rfl, endsWith_updateCoeff rfl rfl rfl rfl fun _ hlt ha =>
      arithmeticEnds_reduceWord overflowsOn_mont (coeffIs_iff ha hlt)⟩
  | tomontI rd idx =>
    exact ⟨_, rfl, endsWith_updateCoeff rfl rfl rfl rfl fun _ hlt ha =>
      arithmeticEnds_reduceWord overflowsOn_tomont (coeffIs_iff ha hlt)⟩
  | rdc sel =>
    by_cases hsel : sel.toNat ≤ 7
    · obtain ⟨v, hv⟩ := constant_isSome hsel Config.params
      rw [firstFailure_of_no_operand_check (i := .rdc sel) (decide_eq_true hsel) rfl rfl rfl id]
      exact ⟨.ok (s.respond v), exec_rdc_of_constant s hv, .completion ⟨rfl, rfl, rfl⟩⟩
    · rw [firstFailure_of_not_wellFormed (i := .rdc sel) (decide_eq_false hsel)]
      exact ⟨.error .illegalCommand, by rw [exec, execRdc, constant_eq_none hsel], .fault _⟩

section
variable {i : Instr} {s t : State} {c : Cause}

/-- The first check that fails is the fault (60 R199). -/
theorem exec_of_firstFailure (h : firstFailure i s = some c) : exec i s = .next (faultEntry c s) := by
  obtain ⟨r, hexec, hr⟩ := exec_eq_finish i s
  rw [h] at hr
  cases hr
  exact hexec

theorem exec_of_no_failure (h : firstFailure i s = none) : ∃ t, exec i s = .next t ∧ SameRecord s t := by
  obtain ⟨r, hexec, hr⟩ := exec_eq_finish i s
  rw [h] at hr
  cases hr with
  | completion hrecord => exact ⟨_, hexec, hrecord⟩

/-- A command that ends has entered the fault of its first failure, or kept the fault record. -/
theorem exec_cases (h : exec i s = .next t) :
    (∃ c, firstFailure i s = some c ∧ t = faultEntry c s) ∨ (firstFailure i s = none ∧ SameRecord s t) := by
  cases hf : firstFailure i s with
  | some c =>
    cases (exec_of_firstFailure hf).symm.trans h
    exact .inl ⟨c, rfl, rfl⟩
  | none =>
    obtain ⟨u, hu, hrecord⟩ := exec_of_no_failure hf
    cases hu.symm.trans h
    exact .inr ⟨rfl, hrecord⟩

/-- From a state with no fault, the recorded cause is the first failure. -/
theorem fsr_of_exec (hs : Safe s) (h : exec i s = .next t) : t.fsr = firstFailure i s := by
  obtain ⟨c, hf, rfl⟩ | ⟨hf, hfsr, -⟩ := exec_cases h
  · exact hf.symm
  · rw [hfsr, hs, hf]

end

end Sys2Proof.Machine
end

section
/-! PROOFS. What an accepted command raises: `IllegalCommand` exactly on the words that fail 30_encoding R75, and otherwise the
cause of its first failing check (60_exceptions R191, R192, R199). -/

namespace Sys2Proof.Machine

theorem wellFormed_of_decode {w : CmdWord} {i : Instr} (h : decode w = .ok i) : i.wellFormed = true :=
  ((legalWordsHaveOneEncoding w).1 i h).1

section
variable {s t : State} {c : Command} {rest : List PortInput}

/-- Accepting a word that is no command is fault entry and nothing else (60 R191, R200). -/
theorem step_of_not_legalWord (hacc : Accepts s c rest) (h : ¬ LegalWord c.word) :
    step s = .next (faultEntry .illegalCommand ({ s with inputs := rest }.latch c)) := by
  obtain ⟨i, hdecode, -⟩ | ⟨-, -, hrun⟩ := runCommand_cases c { s with inputs := rest }
  · exact absurd (exists_decode_iff_legalWord.mp ⟨i, hdecode⟩) h
  · exact (step_of_accepts hacc).trans hrun

/-- Accepting a legal word runs its command, and records the cause of the first check that fails, if any does. -/
theorem fsr_of_accepts (hacc : Accepts s c rest) (h : LegalWord c.word) (hstep : step s = .next t) :
    ∃ i, decode c.word = .ok i ∧ t.fsr = firstFailure i ({ s with inputs := rest }.latch c) := by
  obtain ⟨i, hdecode⟩ := exists_decode_iff_legalWord.mpr h
  rw [step_of_accepts hacc, runCommand_of_decode _ hdecode] at hstep
  exact ⟨i, hdecode, fsr_of_exec hacc.1 hstep⟩

end

/-- Past the decoder no check raises `IllegalCommand`. -/
theorem firstFailure_ne_illegalCommand {i : Instr} (s : State) (hwf : i.wellFormed = true) :
    firstFailure i s ≠ some .illegalCommand := by
  intro h
  cases failsFirst_of_firstFailure h with
  | decode hwf' => simp [hwf] at hwf'

/-- Settles O8: a word that fails R75 is fault entry, and a legal word has a command that decoded. -/
theorem illegalWordsFault : Obligations.IllegalWordsFault := by
  intro s c rest t hacc hstep
  by_cases hlegal : LegalWord c.word
  · obtain ⟨i, hdecode, hfsr⟩ := fsr_of_accepts hacc hlegal hstep
    have hne := firstFailure_ne_illegalCommand ({ s with inputs := rest }.latch c) (wellFormed_of_decode hdecode)
    exact ⟨iff_of_false (hfsr ▸ hne) (not_not.mpr hlegal), fun h => absurd hlegal h⟩
  · cases (step_of_not_legalWord hacc hlegal).symm.trans hstep
    exact ⟨iff_of_true rfl hlegal, fun _ => ⟨rfl, rfl⟩⟩

/-- Settles O25: an illegal word is not decoded; a command ends at the first of its checks that fails. -/
theorem priorityOfCauses : Obligations.PriorityOfCauses := by
  refine ⟨fun s c rest hacc h => ⟨_, step_of_not_legalWord hacc h, rfl⟩, fun i s hwf => ⟨fun h => ?_, fun hp h => ?_,
    fun hp hb h => ?_, fun hp hb hi h => ?_, fun hp hb hi h => ?_⟩⟩
  · exact exec_of_firstFailure (firstFailure_of_privilegeFails hwf h)
  · exact exec_of_firstFailure (firstFailure_of_bankFails hwf hp h)
  · exact exec_of_firstFailure (firstFailure_of_indexFails hwf hp hb h)
  · exact exec_of_firstFailure (firstFailure_of_arithmeticFails ⟨hwf, hp, hb, hi⟩ h)
  · exact exec_of_no_failure (firstFailure_of_pass ⟨hwf, hp, hb, hi⟩ h)

/-- RDC, the one command that can be ill-formed, is public. -/
theorem wellFormed_of_restricted {i : Instr} (h : i.op.restricted = true) : i.wellFormed = true := by
  cases i with
  | rdc sel => cases h
  | _ => rfl

theorem privilegeFails_of_firstFailure {i : Instr} {s : State} (h : firstFailure i s = some .privilegeFault) :
    privilegeFails i s := by
  cases failsFirst_of_firstFailure h with
  | privilege hp => exact hp

/-- Settles O27: `PrivilegeFault` is the first failure of exactly the restricted commands without trust. -/
theorem restrictedNeedsTrust : Obligations.RestrictedNeedsTrust := by
  refine fun i s => ⟨fun hop htrusted => ?_, fun t hs hexec ht => ?_⟩
  · exact exec_of_firstFailure (firstFailure_of_privilegeFails (wellFormed_of_restricted hop) ⟨hop, htrusted⟩)
  · exact privilegeFails_of_firstFailure ((fsr_of_exec hs hexec).symm.trans ht)

end Sys2Proof.Machine
end

section
/-! PROOFS. The fault record stays truthful: a fault is recorded with the word and trusted bit of the command whose first
failing check raised it, and nothing changes record or banks afterwards but reset (60_exceptions R196, R199, R203). -/

namespace Sys2Proof.Machine

/-! The table of 60 R197, from the checks a command has. -/

section
variable {i : Instr} {s t : State} {c : Cause}

theorem mayRaise_uninitBank_iff : mayRaise i.op .uninitBank = true ↔ i.banksRead ≠ [] := by
  cases i <;> simp [mayRaise, Instr.op, Op.restricted, Instr.banksRead]

theorem mayRaise_indexFault_iff : mayRaise i.op .indexFault = true ↔ i.indexUsed ≠ none := by
  cases i <;> simp [mayRaise, Instr.op, Op.restricted, Instr.indexUsed]

theorem mayRaise_overflow_of_arithmeticFails (h : arithmeticFails i s) : mayRaise i.op .overflow = true := by
  cases i with
  | zero | get | set | seq | rdc => exact h.elim
  | _ => rfl

/-- The table has every cause a check can raise. -/
theorem mayRaise_of_firstFailure (h : firstFailure i s = some c) : mayRaise i.op c = true := by
  cases failsFirst_of_firstFailure h with
  | decode => rfl
  | privilege hp => exact hp.1
  | bank _ hb =>
    obtain ⟨b, hb, -⟩ := hb
    exact mayRaise_uninitBank_iff.mpr (List.ne_nil_of_mem hb)
  | index _ _ hi =>
    obtain ⟨idx, hidx, -⟩ := hi
    exact mayRaise_indexFault_iff.mpr (by simp [hidx])
  | arithmetic _ ha => exact mayRaise_overflow_of_arithmeticFails ha

/-! Each thing a step can do keeps the record truthful. -/

theorem recordTruthful_of_safe (h : Safe s) : RecordTruthful s := by
  intro c hc
  cases h.symm.trans hc

/-- A record of an illegal word names that word (60 R191). -/
theorem recordTruthful_of_illegal {e : Illegal} (h : decode s.cmd.word = .error e) :
    RecordTruthful (faultEntry .illegalCommand s) := by
  intro c hc
  cases hc
  simp only [faultEntry_fcmd, h]

/-- A record of the first failing check names the command that failed it: banks and trusted bit are as the check saw
them. -/
theorem recordTruthful_of_firstFailure (hdecode : decode s.cmd.word = .ok i) (h : firstFailure i s = some c) :
    RecordTruthful (faultEntry c s) := by
  intro c' hc'
  cases hc'
  simp only [faultEntry_fcmd, hdecode]
  have hmay := mayRaise_of_firstFailure h
  cases failsFirst_of_firstFailure h with
  | decode => exact absurd h (firstFailure_ne_illegalCommand s (wellFormed_of_decode hdecode))
  | privilege hp => exact ⟨nofun, hmay, iff_of_true rfl hp, nofun, nofun, nofun⟩
  | bank hp hb => exact ⟨nofun, hmay, iff_of_false nofun hp, fun _ => hb, nofun, nofun⟩
  | index hp hb hi => exact ⟨nofun, hmay, iff_of_false nofun hp, nofun, fun _ => ⟨hb, hi⟩, nofun⟩
  | arithmetic hpass ha =>
    exact ⟨nofun, hmay, iff_of_false nofun hpass.privilege, nofun, nofun, fun _ => ⟨hpass.bank, hpass.index, ha⟩⟩

theorem recordTruthful_of_runCommand {cmd : Command} (hsafe : Safe s) (h : runCommand cmd s = .next t) :
    RecordTruthful t := by
  obtain ⟨i, hdecode, hrun⟩ | ⟨e, hdecode, hrun⟩ := runCommand_cases cmd s <;> rw [hrun] at h
  · obtain ⟨c, hf, rfl⟩ | ⟨-, hfsr, -⟩ := exec_cases h
    · exact recordTruthful_of_firstFailure hdecode hf
    · exact recordTruthful_of_safe (hfsr.trans hsafe)
  · cases h
    exact recordTruthful_of_illegal hdecode

theorem recordTruthful_transferBeat (inp : PortInput) (h : RecordTruthful s) : RecordTruthful (transferBeat inp s) := by
  rw [transferBeat]
  split <;> exact h

end

/-- Settles O21, from what one step can do. -/
theorem stepKeepsRecordTruthful : Obligations.StepKeepsRecordTruthful := by
  intro s t hs h
  obtain ⟨-, hstep⟩ | ⟨inp, rest, -, ⟨-, hstep⟩ | ⟨-, hidle, c, -, hstep⟩ | ⟨-, -, hstep⟩⟩ := step_cases s <;>
    rw [hstep] at h
  · cases h
    exact hs
  · cases h
    exact recordTruthful_of_safe rfl
  · exact recordTruthful_of_runCommand (s := { s with inputs := rest }) (idle_iff.mp hidle).1 h
  · cases h
    exact recordTruthful_transferBeat (s := { s with inputs := rest }) inp hs

end Sys2Proof.Machine
end

section
/-! PROOFS. A host of public commands alone makes no non-zero coefficient: ZERO writes zeros, ADD and SUB of zeros are zeros,
and only a trusted restricted command could write anything else (60_exceptions R205, R206). -/

namespace Sys2Proof.Machine

section
variable {i : Instr} {s t : State}

/-- A bank replaced by zeros leaves every coefficient 0. -/
theorem allZero_writeBank_respond (hs : AllZero s) {a : RingElem} (ha : ∀ j, coeff a j = 0) (rd : BankId) (v : Word) :
    AllZero ((s.writeBank rd a).respond v) := by
  intro b j x hx
  rw [State.respond_readCoeff, readCoeff_writeBank] at hx
  split at hx
  · exact (Option.some_inj.mp hx).symm.trans (ha j)
  · exact hs b j x hx

theorem coeff_of_allZero (hs : AllZero s) {b : BankId} {a : RingElem} (ha : s.bank b = some a) (j : Fin 256) :
    coeff a j = 0 :=
  hs b j _ (readCoeff_of_bank ha j)

/-- ADD and SUB of zeros: a lane operation that takes zeros to zero makes no other number. -/
theorem allZero_of_combineBanks {f : Int → Int → Int} {rd ra rb : BankId} (hs : AllZero s) (hf : f 0 0 = 0)
    (h : finish s (combineBanks f rd ra rb s) = .next t) : AllZero t := by
  obtain hok | ⟨c, -, rfl⟩ := finish_cases h
  · cases ha : s.bank ra with
    | none => simp [combineBanks_uninit (.inl ha)] at hok
    | some a =>
      cases hb : s.bank rb with
      | none => simp [combineBanks_uninit (.inr hb)] at hok
      | some b =>
        rw [combineBanks_of_banks ha hb, except_map_eq_ok] at hok
        obtain ⟨c, hc, rfl⟩ := hok
        refine allZero_writeBank_respond hs (fun j => ?_) rd 0
        have hlane : dec32 (coeff c j) = 0 := by
          rw [dec32_coeff_of_lanes hc, coeff_of_allZero hs ha, coeff_of_allZero hs hb]
          exact hf
        rw [← enc32_dec32 (coeff c j), hlane]
        rfl
  · exact hs

/-- The commands that replace a whole bank put zeros there. -/
theorem allZero_of_replacesBank (hs : AllZero s) (hop : i.op.replacesBank = true) (h : exec i s = .next t) :
    AllZero t := by
  cases i with
  | zero rd =>
    cases h
    exact allZero_writeBank_respond hs coeff_zeroElem rd 0
  | add | sub => exact allZero_of_combineBanks hs rfl h
  | _ => cases hop

/-- A public command keeps every coefficient 0. -/
theorem allZero_of_exec (hs : AllZero s) (hpublic : s.cmd.trusted = false) (h : exec i s = .next t) : AllZero t := by
  cases commandEffect_of_exec h with
  | fault | answer => exact hs
  | updateCoeff _ _ _ _ _ htrusted => simp [hpublic] at htrusted
  | replaceBank _ _ hop => exact allZero_of_replacesBank hs hop h

theorem allZero_of_runCommand {c : Command} (hs : AllZero s) (hpublic : c.trusted = false)
    (h : runCommand c s = .next t) : AllZero t := by
  obtain ⟨i, -, hrun⟩ | ⟨-, -, hrun⟩ := runCommand_cases c s <;> rw [hrun] at h
  · exact allZero_of_exec (s := s.latch c) hs hpublic h
  · cases h
    exact hs

theorem allZero_transferBeat (inp : PortInput) (hs : AllZero s) : AllZero (transferBeat inp s) := by
  rw [transferBeat]
  split <;> exact hs

theorem allZero_of_step (hpublic : PublicOnly s) (hs : AllZero s) (h : step s = .next t) : AllZero t := by
  obtain ⟨-, hstep⟩ | ⟨inp, rest, hinputs, ⟨-, hstep⟩ | ⟨-, -, c, hc, hstep⟩ | ⟨-, -, hstep⟩⟩ := step_cases s <;>
    rw [hstep] at h
  · cases h
    exact hs
  · cases h
    exact (resetMeetsInvariants rest).2.2
  · have hinp : inp ∈ s.inputs := hinputs ▸ List.mem_cons_self
    exact allZero_of_runCommand (s := { s with inputs := rest }) hs (hpublic inp hinp c hc) h
  · cases h
    exact allZero_transferBeat (s := { s with inputs := rest }) inp hs

/-! A step uses up one port sample. -/

theorem sameHost_of_exec (h : exec i s = .next t) : SameHost s t := by
  cases commandEffect_of_exec h <;> exact ⟨rfl, rfl⟩

theorem inputs_of_runCommand {c : Command} (h : runCommand c s = .next t) : t.inputs = s.inputs := by
  obtain ⟨i, -, hrun⟩ | ⟨-, -, hrun⟩ := runCommand_cases c s <;> rw [hrun] at h
  · exact (sameHost_of_exec h).2
  · cases h
    rfl

theorem inputs_transferBeat (inp : PortInput) (s : State) : (transferBeat inp s).inputs = s.inputs := by
  rw [transferBeat]
  split <;> rfl

theorem inputs_of_step (h : step s = .next t) : t.inputs = s.inputs.tail := by
  obtain ⟨hinputs, hstep⟩ | ⟨inp, rest, hinputs, ⟨-, hstep⟩ | ⟨-, -, c, -, hstep⟩ | ⟨-, -, hstep⟩⟩ := step_cases s <;>
    rw [hstep] at h <;> rw [hinputs]
  · cases h
    exact hinputs
  · cases h
    rfl
  · exact inputs_of_runCommand h
  · cases h
    exact inputs_transferBeat inp _

end

/-- Settles O22: the rest of a public host is public, and each thing its step can do keeps the coefficients 0. -/
theorem publicHostKeepsZero : Obligations.PublicHostKeepsZero := by
  intro s t hpublic hs h
  refine ⟨fun inp hinp => hpublic inp ?_, allZero_of_step hpublic hs h⟩
  rw [inputs_of_step h] at hinp
  exact List.mem_of_mem_tail hinp

end Sys2Proof.Machine
end

section
/-! PROOFS. FAULTED until reset: nothing but the error beat can leave (60_exceptions R201, R203). -/

namespace Sys2Proof.Machine

theorem idle_of_faulted {s : State} (h : s.fsr ≠ none) : s.idle = false :=
  eq_false_of_ne_true fun hidle => h (idle_iff.mp hidle).1

theorem cmdReady_of_faulted {s : State} (h : s.fsr ≠ none) (rst : Bool) : (outputs rst s).cmdReady = false := by
  simp [outputs, idle_of_faulted h]

/-- The response port takes the oldest beat when the host is ready (70 R235). -/
theorem transferBeat_eq (inp : PortInput) (s : State) :
    transferBeat inp s = { s with resp := if inp.respReady then s.resp.tail else s.resp } := by
  rw [transferBeat]
  split <;> rfl

/-- Settles O16: a FAULTED RRU is not idle, so the step is the response port's. -/
theorem faultedStepChangesNothing : Obligations.FaultedStepChangesNothing := by
  intro s inp rest hs hinputs hrst
  refine ⟨cmdReady_of_faulted hs false, ?_⟩
  have hidle : ({ s with inputs := rest } : State).idle = false := idle_of_faulted hs
  rw [step_cons hinputs, stepInput_transfer hrst (.inl hidle), transferBeat_eq]

/-- What a FAULTED RRU keeps until reset: banks, record, the sampled command, and of its response some last beats. -/
structure FaultKept (s t : State) : Prop where
  banks : t.banks = s.banks
  record : SameRecord s t
  cmd : t.cmd = s.cmd
  resp : t.resp <:+ s.resp

theorem FaultKept.refl (s : State) : FaultKept s s := ⟨rfl, ⟨rfl, rfl, rfl⟩, rfl, List.suffix_rfl⟩

theorem FaultKept.trans {s t u : State} (hst : FaultKept s t) (htu : FaultKept t u) : FaultKept s u := by
  obtain ⟨hfsr, hfcmd, hftrust⟩ := hst.record
  obtain ⟨hfsr', hfcmd', hftrust'⟩ := htu.record
  exact ⟨htu.banks.trans hst.banks, ⟨hfsr'.trans hfsr, hfcmd'.trans hfcmd, hftrust'.trans hftrust⟩,
    htu.cmd.trans hst.cmd, htu.resp.trans hst.resp⟩

theorem faultKept_step {s : State} (hs : s.fsr ≠ none) (hreset : NoReset s) :
    ∃ t, step s = .next t ∧ FaultKept s t := by
  cases hinputs : s.inputs with
  | nil => exact ⟨s, step_nil hinputs, .refl s⟩
  | cons inp rest =>
    have hrst : inp.rst = false := hreset inp (hinputs ▸ List.mem_cons_self)
    refine ⟨_, (faultedStepChangesNothing s inp rest hs hinputs hrst).2, rfl, ⟨rfl, rfl, rfl⟩, rfl, ?_⟩
    dsimp only
    split
    · exact List.tail_suffix _
    · exact List.suffix_rfl

theorem faultKept_run (k : Nat) {s : State} (hs : s.fsr ≠ none) (hreset : NoReset s) :
    ∃ t, core.run k s = .next t ∧ FaultKept s t := by
  induction k generalizing s with
  | zero => exact ⟨s, run_zero s, .refl s⟩
  | succ k ih =>
    obtain ⟨u, hstep, hkept⟩ := faultKept_step hs hreset
    have hu : NoReset u := fun inp hinp => hreset inp (List.mem_of_mem_tail (inputs_of_step hstep ▸ hinp))
    obtain ⟨t, hrun, hkept'⟩ := ih (hkept.record.1.trans_ne hs) hu
    exact ⟨t, (run_succ hstep k).trans hrun, hkept.trans hkept'⟩

/-- Settles O17, by induction on the number of steps. -/
theorem faultedUntilReset : Obligations.FaultedUntilReset := by
  intro k s hs hreset
  obtain ⟨t, hrun, hkept⟩ := faultKept_run k hs hreset
  exact ⟨t, hrun, hkept.banks, hkept.record, hkept.cmd, hkept.resp,
    cmdReady_of_faulted (hkept.record.1.trans_ne hs)⟩

end Sys2Proof.Machine
end

section
/-! PROOFS. A command completes or is fault entry (60_exceptions R196, R200), and a public one does not see the trusted bit
(R205). -/

namespace Sys2Proof.Machine

/-- Settles O24: fault entry is one of the effects of a command, and the others keep the fault record. -/
theorem completesOrEntersFault : Obligations.CompletesOrEntersFault := by
  intro i s
  obtain ⟨t, h⟩ := exec_next i s
  refine ⟨t, h, sameHost_of_exec h, ?_⟩
  cases commandEffect_of_exec h with
  | fault c => exact .inr ⟨c, rfl, rfl, rfl, rfl, fun _ _ => rfl⟩
  | answer beats hdata hlength => exact .inl ⟨⟨rfl, rfl, rfl⟩, hdata, hlength⟩
  | replaceBank | updateCoeff => exact .inl ⟨⟨rfl, rfl, rfl⟩, rfl, by simp⟩

/-! The checks and effect of a public command give the same whichever command was sampled. -/

section
variable (s : State) (c : Command)

theorem respondReduced_latch (f : Int → Except Cause Int) (imm : Word) :
    respondReduced f imm (s.latch c) = (respondReduced f imm s).map (·.latch c) := by
  simp only [respondReduced]
  cases reduceWord f imm <;> rfl

theorem combineBanks_latch (f : Int → Int → Int) (rd ra rb : BankId) :
    combineBanks f rd ra rb (s.latch c) = (combineBanks f rd ra rb s).map (·.latch c) := by
  have hsources : combinedSources f ra rb (s.latch c) = combinedSources f ra rb s := rfl
  rw [combineBanks_eq_map, combineBanks_eq_map, hsources]
  cases combinedSources f ra rb s <;> rfl

theorem exec_latch_of_public {i : Instr} (hop : i.op.restricted = false) :
    ∃ r, exec i s = finish s r ∧ exec i (s.latch c) = finish (s.latch c) (r.map (·.latch c)) := by
  cases i with
  | barrett imm | mont imm | tomont imm => exact ⟨_, rfl, congrArg (finish _) (respondReduced_latch s c _ imm)⟩
  | zero rd => exact ⟨.ok ((s.writeBank rd zeroElem).respond 0), rfl, rfl⟩
  | get ra idx =>
    have hlocate : locate (s.latch c) ra idx = locate s ra idx := rfl
    refine ⟨_, rfl, ?_⟩
    rw [exec, execGet, hlocate]
    cases locate s ra idx <;> rfl
  | add rd ra rb | sub rd ra rb => exact ⟨_, rfl, congrArg (finish _) (combineBanks_latch s c _ rd ra rb)⟩
  | seq ra =>
    have hread : readBank (s.latch c) ra = readBank s ra := rfl
    refine ⟨_, rfl, ?_⟩
    rw [exec, execSeq, hread]
    cases readBank s ra <;> rfl
  | rdc sel =>
    refine ⟨_, rfl, ?_⟩
    rw [exec, execRdc]
    cases constant Config.params sel <;> rfl
  | set | barrettI | montI | tomontI => cases hop

end

/-- Settles O28: with either trusted bit the command raises the same cause or completes with the same effect. -/
theorem publicCommandsIgnoreTrust : Obligations.PublicCommandsIgnoreTrust := by
  intro i s trusted t u hop ht hu
  obtain ⟨r, hs, hlatch⟩ := exec_latch_of_public s { word := s.cmd.word, trusted := trusted } hop
  rw [hs] at ht
  replace hu := hlatch.symm.trans hu
  cases r with
  | error c =>
    cases ht
    cases hu
    exact ⟨rfl, rfl, rfl, rfl, nofun⟩
  | ok v =>
    cases ht
    cases hu
    exact ⟨rfl, rfl, rfl, rfl, fun _ => rfl⟩

end Sys2Proof.Machine
end

section
/-! PROOFS. The fault table is exact: a command raises no cause but its own row's, and for each cause in its row some state
and operands make the check of that cause its first failure (60_exceptions R197). -/

namespace Sys2Proof.Machine

section
variable {i : Instr} {o : Op} {c : Cause}

theorem op_build (f : C64) (o : Op) : (build f o).op = o := by
  cases o <;> rfl

theorem code_injective {o o' : Op} (h : o.code = o'.code) : o = o' := by
  simpa using congrArg opOfCode h

theorem op_of_decode {w : CmdWord} (hop : (unpack w).op = o.code) (h : decode w = .ok i) : i.op = o := by
  obtain ⟨o', hlegal, rfl⟩ := decode_eq_ok_iff.mp h
  rw [op_build, code_injective (hlegal.op_eq.symm.trans hop)]

/-- Some accepted word of opcode `o` raises `c`. -/
def Raises (o : Op) (c : Cause) : Prop :=
  ∃ s cmd t, Accepts s cmd [] ∧ (unpack cmd.word).op = o.code ∧ step s = .next t ∧ t.fsr = some c

/-- A command raises no cause but those of its row. -/
theorem mayRaise_of_raises (h : Raises o c) : mayRaise o c = true := by
  obtain ⟨s, cmd, t, hacc, hop, hstep, ht⟩ := h
  by_cases hlegal : LegalWord cmd.word
  · obtain ⟨i, hdecode, hfsr⟩ := fsr_of_accepts hacc hlegal hstep
    rw [← op_of_decode hop hdecode]
    exact mayRaise_of_firstFailure (hfsr.symm.trans ht)
  · cases (step_of_not_legalWord hacc hlegal).symm.trans hstep
    cases ht
    rfl

/-! Accepted words that raise a cause. -/

/-- A word of opcode `o` with its reserved bits not 0. -/
def reservedBitsWord (o : Op) : CmdWord := pack { imm := 0, op := o.code, rd := 0, ra := 0, rb := 0, z := 1, idx := 0 }

theorem not_legalWord_reservedBitsWord (o : Op) : ¬ LegalWord (reservedBitsWord o) := by
  rintro ⟨o', -, hz, -⟩
  rw [reservedBitsWord, unpack_pack] at hz
  cases hz

theorem op_unpack_encode (i : Instr) : (unpack (encode i)).op = i.op.code :=
  (encodedFields i).1

/-- An idle RRU with these banks, at a host that presents one command and nothing more. -/
def presented (banks : Vector (Option RingElem) 4) (cmd : Command) : State :=
  { State.reset with banks := banks, inputs := [present cmd] }

/-- The state in which that command is run. -/
def sampled (banks : Vector (Option RingElem) 4) (cmd : Command) : State :=
  { State.reset with banks := banks, cmd := cmd }

theorem accepts_presented (banks : Vector (Option RingElem) 4) (cmd : Command) : Accepts (presented banks cmd) cmd [] :=
  ⟨rfl, rfl, false, rfl⟩

theorem step_presented (banks : Vector (Option RingElem) 4) {cmd : Command} (h : decode cmd.word = .ok i) :
    step (presented banks cmd) = exec i (sampled banks cmd) :=
  (step_of_accepts (accepts_presented banks cmd)).trans (runCommand_of_decode _ h)

theorem raises_illegalCommand (o : Op) : Raises o .illegalCommand :=
  have hacc := accepts_presented State.reset.banks { word := reservedBitsWord o, trusted := true }
  ⟨_, _, _, hacc, congrArg C64.op (unpack_pack _), step_of_not_legalWord hacc (not_legalWord_reservedBitsWord o), rfl⟩

/-- A command whose first failure has cause `c` raises it when its word is accepted. -/
theorem raises_of_firstFailure {banks : Vector (Option RingElem) 4} {trusted : Bool} (hwf : i.wellFormed = true)
    (h : firstFailure i (sampled banks { word := encode i, trusted := trusted }) = some c) : Raises i.op c := by
  have hacc := accepts_presented banks { word := encode i, trusted := trusted }
  have hstep := step_presented banks (cmd := { word := encode i, trusted := trusted }) (decodeOfEncode i hwf)
  exact ⟨_, _, _, hacc, op_unpack_encode i, hstep.trans (exec_of_firstFailure h), rfl⟩

/-- A restricted command presented without trust. -/
theorem raises_privilegeFault (hop : i.op.restricted = true) : Raises i.op .privilegeFault :=
  have hwf := wellFormed_of_restricted hop
  raises_of_firstFailure (banks := State.reset.banks) (trusted := false) hwf
    (firstFailure_of_privilegeFails hwf ⟨hop, rfl⟩)

/-- A command that reads a bank, right after reset. -/
theorem raises_uninitBank (hwf : i.wellFormed = true) (hbanks : i.banksRead ≠ []) : Raises i.op .uninitBank := by
  obtain ⟨b, hb⟩ := List.exists_mem_of_ne_nil _ hbanks
  exact raises_of_firstFailure (banks := State.reset.banks) (trusted := true) hwf
    (firstFailure_of_bankFails hwf (not_privilegeFails_of_trusted rfl) ⟨b, hb, not_valid_iff.mpr (reset_bank b)⟩)

/-- Bank 0 holds an operand that every reduction rejects; with bank 1 it overflows in lane 0 by SUB and in the others by
ADD. -/
def overflowingBanks : Vector (Option RingElem) 4 :=
  #v[some (ringOf fun _ => 0x80000001#32), some (ringOf fun i => if i = 0 then 2 else enc32 (-2)), some zeroElem,
    some zeroElem]

theorem isSome_overflowingBanks : ∀ b : BankId, (overflowingBanks[b.toNat]'b.isLt).isSome = true := by
  decide

theorem not_bankFails_overflowingBanks (i : Instr) (cmd : Command) : ¬ bankFails i (sampled overflowingBanks cmd) := by
  rintro ⟨b, -, hb⟩
  exact absurd (isSome_overflowingBanks b) (ne_true_of_eq_false hb)

/-- A trusted command with valid banks and an index out of range. -/
theorem raises_indexFault (hwf : i.wellFormed = true) (hindex : indexFails i) : Raises i.op .indexFault :=
  raises_of_firstFailure (trusted := true) hwf
    (firstFailure_of_indexFails hwf (not_privilegeFails_of_trusted rfl) (not_bankFails_overflowingBanks i _) hindex)

/-- A trusted command with valid banks and an index in range whose arithmetic overflows. -/
theorem raises_overflow (hwf : i.wellFormed = true) (hindex : ¬ indexFails i)
    (harith : ∀ cmd, arithmeticFails i (sampled overflowingBanks cmd)) : Raises i.op .overflow :=
  raises_of_firstFailure (trusted := true) hwf
    (firstFailure_of_arithmeticFails
      ⟨hwf, not_privilegeFails_of_trusted rfl, not_bankFails_overflowingBanks i _, hindex⟩ (harith _))

/-! A command of each opcode for each of the last three causes. -/

/-- Operands for every opcode: an `imm` that every reduction rejects, source banks 0 and 1, and the given index. -/
def operands (idx : Index) : C64 := { imm := 0x80000001#32, op := 0, rd := 0, ra := 0, rb := 1, z := 0, idx := idx }

/-- The one command that can be ill-formed has no cause but `IllegalCommand` in its row. -/
theorem eq_illegalCommand_of_mayRaise_rdc (h : mayRaise .rdc c = true) : c = .illegalCommand := by
  cases c with
  | illegalCommand => rfl
  | _ => cases h

theorem wellFormed_build_operands (h : o ≠ .rdc) (idx : Index) : (build (operands idx) o).wellFormed = true :=
  wellFormed_build_iff.mpr fun ho => absurd ho h

theorem indexUsed_build {f : C64} {idx : Index} (h : (build f o).indexUsed = some idx) : idx = f.idx := by
  cases o <;> simp_all [build, Instr.indexUsed]

/-- The least int32 but one is rejected by every reduction. -/
theorem reductions_reject : barrettOverflows (dec32 0x80000001#32) ∧ montOverflows (dec32 0x80000001#32) ∧
    tomontOverflows (dec32 0x80000001#32) := by
  unfold barrettOverflows tomontOverflows montOverflows
  decide

theorem readCoeff_bank_zero (cmd : Command) (j : Fin 256) :
    (sampled overflowingBanks cmd).readCoeff 0 j = some 0x80000001#32 :=
  congrArg some (coeff_ringOf _ j)

theorem readCoeff_bank_one (cmd : Command) (j : Fin 256) :
    (sampled overflowingBanks cmd).readCoeff 1 j = some (if j = 0 then 2 else enc32 (-2)) :=
  congrArg some (coeff_ringOf _ j)

theorem coeffIs_bank_zero {p : Int → Prop} (h : p (dec32 0x80000001#32)) (cmd : Command) :
    coeffIs p (sampled overflowingBanks cmd) 0 0 :=
  ⟨0, rfl, _, readCoeff_bank_zero cmd 0, h⟩

theorem arithmeticFails_overflowingBanks (h : mayRaise o .overflow = true) (cmd : Command) :
    arithmeticFails (build (operands 0) o) (sampled overflowingBanks cmd) := by
  obtain ⟨hbarrett, hmont, htomont⟩ := reductions_reject
  cases o with
  | barrett => exact hbarrett
  | mont => exact hmont
  | tomont => exact htomont
  | add => exact ⟨1, _, _, readCoeff_bank_zero cmd 1, readCoeff_bank_one cmd 1, by decide⟩
  | sub => exact ⟨0, _, _, readCoeff_bank_zero cmd 0, readCoeff_bank_one cmd 0, by decide⟩
  | barrettI => exact coeffIs_bank_zero hbarrett cmd
  | montI => exact coeffIs_bank_zero hmont cmd
  | tomontI => exact coeffIs_bank_zero htomont cmd
  | zero | get | set | seq | rdc => cases h

/-- Every cause in the row of a command is raised by one. -/
theorem raises_of_mayRaise (h : mayRaise o c = true) : Raises o c := by
  have hrdc (hc : c ≠ .illegalCommand) : o ≠ .rdc := fun ho => hc (eq_illegalCommand_of_mayRaise_rdc (ho ▸ h))
  cases c with
  | illegalCommand => exact raises_illegalCommand o
  | privilegeFault => exact op_build (operands 0) o ▸ raises_privilegeFault (by rwa [op_build])
  | uninitBank =>
    rw [← op_build (operands 0) o] at h ⊢
    exact raises_uninitBank (wellFormed_build_operands (hrdc nofun) 0) (mayRaise_uninitBank_iff.mp h)
  | indexFault =>
    rw [← op_build (operands 256) o] at h ⊢
    obtain ⟨idx, hidx⟩ := Option.ne_none_iff_exists'.mp (mayRaise_indexFault_iff.mp h)
    exact raises_indexFault (wellFormed_build_operands (hrdc nofun) 256) ⟨idx, hidx, by rw [indexUsed_build hidx]; decide⟩
  | overflow =>
    have hindex : ¬ indexFails (build (operands 0) o) := by
      rintro ⟨idx, hidx, hge⟩
      rw [indexUsed_build hidx] at hge
      exact absurd hge (by decide)
    exact op_build (operands 0) o ▸
      raises_overflow (wellFormed_build_operands (hrdc nofun) 0) hindex (arithmeticFails_overflowingBanks h)

end

/-- Settles O26: the checks of a command are those of its row, and a word of a reserved opcode is not legal. -/
theorem faultTableIsExact : Obligations.FaultTableIsExact := by
  refine ⟨fun o c => ⟨raises_of_mayRaise, mayRaise_of_raises⟩, fun s cmd rest t hacc hop hstep => ?_⟩
  have hlegal : ¬ LegalWord cmd.word := fun ⟨o, ho, _⟩ => hop o ho
  exact (illegalWordsFault s cmd rest t hacc hstep).1.mpr hlegal

end Sys2Proof.Machine
end

section
/-! PROOFS. One sample of the ports: reset clears every state and alone leaves FAULTED, a command is sampled exactly when an
idle RRU is presented one, and a pending beat waits for the host (70_reset_and_hazards R230, R234, R235, R237). -/

namespace Sys2Proof.Machine

/-- Settles O6: an accepted command is run, and running a word that decodes is its command's meaning. -/
theorem stepRunsDecodedCommand : Obligations.StepRunsDecodedCommand := by
  intro s c rest i hacc hdecode
  exact (step_of_accepts hacc).trans (runCommand_of_decode _ hdecode)

theorem runCommand_next (c : Command) (s : State) : ∃ t, runCommand c s = .next t := by
  obtain ⟨i, -, hrun⟩ | ⟨e, -, hrun⟩ := runCommand_cases c s
  · exact hrun ▸ exec_next i (s.latch c)
  · exact ⟨_, hrun⟩

/-- Settles O9: every command ends in a next state, and all else a step can do is one. -/
theorem everyStepAnswersNext : Obligations.EveryStepAnswersNext := by
  intro s
  obtain ⟨-, hstep⟩ | ⟨inp, rest, -, ⟨-, hstep⟩ | ⟨-, -, c, -, hstep⟩ | ⟨-, -, hstep⟩⟩ := step_cases s
  · exact ⟨_, hstep⟩
  · exact ⟨_, hstep⟩
  · exact hstep ▸ runCommand_next c { s with inputs := rest }
  · exact ⟨_, hstep⟩

section
variable {s t : State} {inp : PortInput} {rest : List PortInput}

/-! The four things one port sample can be, each with what the step then is. -/

theorem step_of_reset (hs : s.inputs = inp :: rest) (hrst : inp.rst = true) :
    step s = .next (applyReset { s with inputs := rest }) :=
  (step_cons hs).trans (stepInput_reset hrst)

theorem step_of_command {c : Command} (hs : s.inputs = inp :: rest) (hrst : inp.rst = false) (hidle : s.idle = true)
    (hc : inp.cmd = some c) : step s = runCommand c { s with inputs := rest } :=
  (step_cons hs).trans (stepInput_accept hrst hidle hc)

/-- With no command accepted the step is the response port's. -/
theorem step_of_no_command (hs : s.inputs = inp :: rest) (hrst : inp.rst = false)
    (h : s.idle = false ∨ inp.cmd = none) :
    step s = .next { s with resp := if inp.respReady then s.resp.tail else s.resp, inputs := rest } := by
  have h' : ({ s with inputs := rest } : State).idle = false ∨ inp.cmd = none := h
  rw [step_cons hs, stepInput_transfer hrst h', transferBeat_eq]

theorem step_of_idle (hs : s.inputs = inp :: rest) (hrst : inp.rst = false) (hidle : s.idle = true)
    (hc : inp.cmd = none) : step s = .next { s with inputs := rest } := by
  rw [step_of_no_command hs hrst (.inr hc), (idle_iff.mp hidle).2]
  simp

end

/-! Reset (70 R230). -/

/-- Settles O10: reset by the fields of `applyReset`; without it a FAULTED RRU changes nothing but its response. -/
theorem resetFromAnyState : Obligations.ResetFromAnyState := by
  refine fun s inp rest hs => ⟨fun hrst => ⟨rfl, rfl, ?_⟩, fun hrst t hfaulted hstep => ?_⟩
  · refine ⟨_, step_of_reset hs hrst, fun b => ?_, rfl, rfl, rfl, rfl, rfl, rfl⟩
    have hbank := applyReset_bank { s with inputs := rest } b
    exact ⟨not_valid_iff.mpr hbank, hbank⟩
  · cases (faultedStepChangesNothing s inp rest hfaulted hs hrst).2.symm.trans hstep
    rfl

/-! The command port (70 R234). -/

theorem cmdReady_iff {s : State} {rst : Bool} : (outputs rst s).cmdReady = true ↔ rst = false ∧ s.idle = true := by
  simp [outputs]

theorem idle_of_not_cmdReady {s : State} {rst : Bool} (hready : (outputs rst s).cmdReady = false)
    (hrst : rst = false) : s.idle = false := by
  subst hrst
  exact hready

theorem cmd_of_runCommand {c : Command} {s t : State} (h : runCommand c s = .next t) : t.cmd = c := by
  obtain ⟨i, -, hrun⟩ | ⟨-, -, hrun⟩ := runCommand_cases c s <;> rw [hrun] at h
  · exact (sameHost_of_exec h).1
  · cases h
    rfl

/-- Settles O12: the four kinds of port sample, and a command presented to an RRU that is not ready is not looked at. -/
theorem acceptedExactlyWhenReady : Obligations.AcceptedExactlyWhenReady := by
  refine fun s inp rest hs => ⟨cmdReady_iff.trans (and_congr_right' idle_iff), fun c t hready hc hstep => ?_,
    fun hready hc => ?_, fun hready => ⟨?_, fun t hrst hstep => ?_⟩⟩
  · obtain ⟨hrst, hidle⟩ := cmdReady_iff.mp hready
    exact cmd_of_runCommand ((step_of_command hs hrst hidle hc).symm.trans hstep)
  · obtain ⟨hrst, hidle⟩ := cmdReady_iff.mp hready
    exact step_of_idle hs hrst hidle hc
  · cases hrst : inp.rst with
    | true => rw [step_of_reset hs hrst, step_of_reset (s := { s with inputs := _ }) rfl rfl]
    | false =>
      have hidle : s.idle = false := idle_of_not_cmdReady hready hrst
      rw [step_of_no_command hs hrst (.inl hidle),
        step_of_no_command (s := { s with inputs := _ }) rfl rfl (.inr rfl)]
  · have hidle : s.idle = false := idle_of_not_cmdReady hready hrst
    cases (step_of_no_command hs hrst (.inl hidle)).symm.trans hstep
    rfl

/-! The response port (70 R235). -/

theorem idle_of_pending {s : State} (h : s.resp ≠ []) : s.idle = false :=
  eq_false_of_ne_true fun hidle => h (idle_iff.mp hidle).2

/-- Settles O13: with a beat pending the RRU is not idle, so the step is the response port's. -/
theorem beatsWaitAndTransfer : Obligations.BeatsWaitAndTransfer := by
  intro s inp rest b bs hs hrst hresp
  have hidle : s.idle = false := idle_of_pending (by simp [hresp])
  rw [step_of_no_command hs hrst (.inl hidle)]
  refine ⟨congrArg List.head? hresp, fun hready => ?_, fun hready => ?_⟩
  · simp [hready, hresp]
  · simp [hready]

end Sys2Proof.Machine
end

section
/-! PROOFS. A command's beats are taken one a port sample until none is left, and a host that drives the ports so with each
command of a sequence drives the run of the sequence (70_reset_and_hazards R235 to R237). -/

namespace Sys2Proof.Machine

/-- `k` port samples take the RRU from `s` to `t`, and the host the beats. -/
structure PortRun (k : Nat) (s t : State) (beats : List Beat) : Prop where
  run : core.run k s = .next t
  stream : portStream k s = beats

theorem portRun_zero (s : State) : PortRun 0 s s [] := ⟨rfl, rfl⟩

theorem portRun_succ {k : Nat} {s t u : State} {beats : List Beat} (hstep : step s = .next u)
    (h : PortRun k u t beats) : PortRun (k + 1) s t (transferred s ++ beats) where
  run := (run_succ hstep k).trans h.run
  stream := by simp only [portStream, hstep, h.stream]

/-! The host takes beats. -/

section
variable {s t : State} {rest : List PortInput} {beats : List Beat}

theorem step_of_takeBeat (hs : s.inputs = takeBeat :: rest) :
    step s = .next { s with resp := s.resp.tail, inputs := rest } :=
  step_of_no_command hs rfl (.inr rfl)

theorem transferred_of_takeBeat (hs : s.inputs = takeBeat :: rest) : transferred s = s.resp.take 1 := by
  rw [transferred, hs]
  cases s.resp <;> rfl

/-- A host ready for `k` samples takes the first `k` beats, in order. -/
theorem portRun_takeBeats {m : Nat} (k : Nat) (hs : s.inputs = List.replicate k takeBeat ++ rest)
    (h : PortRun m { s with resp := s.resp.drop k, inputs := rest } t beats) :
    PortRun (k + m) s t (s.resp.take k ++ beats) := by
  induction k generalizing s with
  | zero =>
    obtain rfl : s.inputs = rest := hs
    simpa using h
  | succ k ih =>
    have htail : PortRun (k + m) { s with resp := s.resp.tail, inputs := List.replicate k takeBeat ++ rest } t
        (s.resp.tail.take k ++ beats) := ih rfl (by simpa using h)
    have hfirst := portRun_succ (step_of_takeBeat hs) htail
    rw [transferred_of_takeBeat hs, ← List.append_assoc, ← List.drop_one, ← List.take_add, Nat.add_comm 1 k] at hfirst
    rwa [Nat.succ_add]

theorem run_takeBeats (k : Nat) (hs : s.inputs = List.replicate k takeBeat ++ rest) :
    core.run k s = .next { s with resp := s.resp.drop k, inputs := rest } :=
  (portRun_takeBeats k hs (portRun_zero _)).run

end

/-! One command, with the beats it gives (70 R235 to R237). -/

theorem accepts_of_present {s : State} {c : Command} {rest : List PortInput} (hfsr : s.fsr = none)
    (hresp : s.resp = []) (hs : s.inputs = present c :: rest) : Accepts s c rest :=
  ⟨hfsr, hresp, false, hs⟩

theorem resp_ne_nil_of_exec {i : Instr} {s t : State} (h : exec i s = .next t) : t.resp ≠ [] := by
  cases commandEffect_of_exec h with
  | answer beats hdata =>
    rintro rfl
    cases hdata
  | fault | replaceBank | updateCoeff => exact List.cons_ne_nil _ _

theorem resp_ne_nil_of_runCommand {c : Command} {s t : State} (h : runCommand c s = .next t) : t.resp ≠ [] := by
  obtain ⟨i, -, hrun⟩ | ⟨-, -, hrun⟩ := runCommand_cases c s <;> rw [hrun] at h
  · exact resp_ne_nil_of_exec h
  · cases h
    exact List.cons_ne_nil _ _

/-- Settles O14: every end of a command has a beat, and after `k` beats taken the rest of them is pending. -/
theorem commandDrainsToIdle : Obligations.CommandDrainsToIdle := by
  intro s c t rest n hfsr hresp hs hstep hn
  have hrun := (step_of_accepts (accepts_of_present hfsr hresp hs)).symm.trans hstep
  have hinputs : t.inputs = List.replicate n takeBeat ++ rest := inputs_of_runCommand hrun
  refine ⟨hn ▸ List.length_pos_iff.mpr (resp_ne_nil_of_runCommand hrun), ?_, fun k hk => ?_⟩
  · rw [run_succ hstep, run_takeBeats n hinputs, hn, List.drop_length]
  · have hsplit : t.inputs = List.replicate k takeBeat ++ (List.replicate (n - k) takeBeat ++ rest) := by
      rw [hinputs, ← List.append_assoc, List.replicate_append_replicate, Nat.add_sub_cancel' hk.le]
    exact ⟨_, (run_succ hstep k).trans (run_takeBeats k hsplit), List.head?_drop⟩

/-! What the host will still drive plays no part in a command. -/

section
variable (s : State) (l : List PortInput)

theorem respondReduced_withInputs (f : Int → Except Cause Int) (imm : Word) :
    respondReduced f imm { s with inputs := l } = (respondReduced f imm s).map ({ · with inputs := l }) := by
  simp only [respondReduced]
  cases reduceWord f imm <;> rfl

theorem combineBanks_withInputs (f : Int → Int → Int) (rd ra rb : BankId) :
    combineBanks f rd ra rb { s with inputs := l } = (combineBanks f rd ra rb s).map ({ · with inputs := l }) := by
  have hsources : combinedSources f ra rb { s with inputs := l } = combinedSources f ra rb s := rfl
  rw [combineBanks_eq_map, combineBanks_eq_map, hsources]
  cases combinedSources f ra rb s <;> rfl

theorem updateCoeff_withInputs (f : Word → Except Cause Word) (rd : BankId) (idx : Index) :
    updateCoeff f rd idx { s with inputs := l } = (updateCoeff f rd idx s).map ({ · with inputs := l }) := by
  have htrusted : checkTrusted { s with inputs := l } = checkTrusted s := rfl
  have hlocate : locate { s with inputs := l } rd idx = locate s rd idx := rfl
  simp only [updateCoeff, htrusted, hlocate]
  cases checkTrusted s with
  | error => rfl
  | ok =>
    cases locate s rd idx with
    | error => rfl
    | ok p =>
      simp only [bind, Except.bind]
      cases f (coeff p.1 p.2) <;> rfl

theorem exec_eq_finish_withInputs (i : Instr) :
    ∃ r, exec i s = finish s r ∧
      exec i { s with inputs := l } = finish { s with inputs := l } (r.map ({ · with inputs := l })) := by
  cases i with
  | barrett imm | mont imm | tomont imm => exact ⟨_, rfl, congrArg (finish _) (respondReduced_withInputs s l _ imm)⟩
  | zero rd => exact ⟨.ok ((s.writeBank rd zeroElem).respond 0), rfl, rfl⟩
  | get ra idx =>
    have hlocate : locate { s with inputs := l } ra idx = locate s ra idx := rfl
    refine ⟨_, rfl, ?_⟩
    rw [exec, execGet, hlocate]
    cases locate s ra idx <;> rfl
  | add rd ra rb | sub rd ra rb => exact ⟨_, rfl, congrArg (finish _) (combineBanks_withInputs s l _ rd ra rb)⟩
  | seq ra =>
    have hread : readBank { s with inputs := l } ra = readBank s ra := rfl
    refine ⟨_, rfl, ?_⟩
    rw [exec, execSeq, hread]
    cases readBank s ra <;> rfl
  | set rd idx | barrettI rd idx | montI rd idx | tomontI rd idx =>
    exact ⟨_, rfl, congrArg (finish _) (updateCoeff_withInputs s l _ rd idx)⟩
  | rdc sel =>
    refine ⟨_, rfl, ?_⟩
    rw [exec, execRdc]
    cases constant Config.params sel <;> rfl

end

theorem exec_withInputs {i : Instr} {s t : State} (h : exec i s = .next t) (l : List PortInput) :
    exec i { s with inputs := l } = .next { t with inputs := l } := by
  obtain ⟨r, hexec, hinputs⟩ := exec_eq_finish_withInputs s l i
  rw [hinputs]
  rw [hexec] at h
  obtain rfl | ⟨c, rfl, rfl⟩ := finish_cases h <;> rfl

theorem runCommand_withInputs {c : Command} {s t : State} (h : runCommand c s = .next t) (l : List PortInput) :
    runCommand c { s with inputs := l } = .next { t with inputs := l } := by
  obtain ⟨i, hdecode, hrun⟩ | ⟨e, hdecode, hrun⟩ := runCommand_cases c s <;> rw [hrun] at h
  · exact (runCommand_of_decode _ hdecode).trans (exec_withInputs h l)
  · cases h
    simp only [runCommand, hdecode]
    rfl

/-! A sequence of commands (70 R237). -/

/-- A step of a command sequence is the command's run from an idle RRU, its beats taken out of the state. -/
theorem of_commandStep {c : Command} {s t : State} {beats : List Beat} (h : commandStep c s = some (t, beats)) :
    s.idle = true ∧ ∃ u, runCommand c s = .next u ∧ t = { u with resp := [] } ∧ beats = u.resp := by
  rw [commandStep] at h
  split_ifs at h with hidle
  refine ⟨hidle, ?_⟩
  obtain ⟨u, hrun⟩ := runCommand_next c s
  rw [hrun] at h
  cases h
  exact ⟨u, hrun, rfl, rfl⟩

theorem step_of_present {c : Command} {s u : State} (hidle : s.idle = true) (hrun : runCommand c s = .next u)
    (l : List PortInput) : step { s with inputs := present c :: l } = .next { u with inputs := l } :=
  (step_of_command (s := { s with inputs := present c :: l }) rfl rfl hidle rfl).trans (runCommand_withInputs hrun l)

/-- A host that presents `c` and then takes its beats drives the RRU through the command's step. -/
theorem portRun_command {c : Command} {s t v : State} {beats beats' : List Beat} {m : Nat} {rest : List PortInput}
    (hcommand : commandStep c s = some (t, beats)) (h : PortRun m { t with inputs := rest } v beats') :
    PortRun (beats.length + m + 1)
      { s with inputs := present c :: (List.replicate beats.length takeBeat ++ rest) } v (beats ++ beats') := by
  obtain ⟨hidle, u, hrun, rfl, rfl⟩ := of_commandStep hcommand
  have htake : PortRun (u.resp.length + m) { u with inputs := List.replicate u.resp.length takeBeat ++ rest } v
      (u.resp.take u.resp.length ++ beats') := portRun_takeBeats u.resp.length rfl (by simpa using h)
  rw [List.take_length] at htake
  exact portRun_succ (step_of_present hidle hrun _) htake

/-- The port samples of a command sequence give the sequence's run; where the run stops, at its end or at a fault, so do
the samples. -/
theorem portRun_portScript (cs : List Command) (s : State) :
    PortRun (portScript cs s).length { s with inputs := portScript cs s } { (runCommands cs s).1 with inputs := [] }
      (runCommands cs s).2 := by
  induction cs generalizing s with
  | nil => exact portRun_zero _
  | cons c cs ih =>
    rw [portScript, runCommands]
    cases hcommand : commandStep c s with
    | none => exact portRun_zero _
    | some p =>
      obtain ⟨t, beats⟩ := p
      simpa using portRun_command hcommand (ih t)

/-- Settles O15, by induction on the sequence. -/
theorem portsRunCommandSequences : Obligations.PortsRunCommandSequences := by
  intro cs s _ _
  have h := portRun_portScript cs s
  exact ⟨h.run, h.stream⟩

end Sys2Proof.Machine
end
